-- ==== Sys2Proof/Word.lean ====
section
/-! DEFINITION. The words that cross the host ports of the CCA engine and the bytes that hold cells. -/

namespace Sys2Proof

/-- A command word or a response word: 32 parallel bits, bit 0 the least significant (R10, R44, R60). -/
abbrev Word := BitVec 32

/-- The payload of a response, and the width at which a register is seen by the host (R67, R27). -/
abbrev Payload := BitVec 28

/-- One stored cell. A cell takes `SW ≤ 8` bits (R8); the model holds it in eight, which nothing observes (R43). -/
abbrev CellByte := BitVec 8

end Sys2Proof
end

