-- ==== Sys2Proof/Syntax.lean ====
section
/-! DEFINITION. The five commands of CCA-CMD version 1 (`spec/30_encoding.md` R63, `spec/opcode_table.json`). -/

namespace Sys2Proof

/-- A command with its operands, in the order of the assembler syntax of R70. An operand is the unsigned integer of
its field (R62); whether it fits the field is `Instr.wf`, whether the instance accepts it is the meaning's check. -/
inductive Instr where
  /-- `WRCELL x, y, s`: write one cell of the current generation (R120). -/
  | wrcell (x y v : Nat)
  /-- `RDCELL x, y`: read one cell of the current generation (R121). -/
  | rdcell (x y : Nat)
  /-- `STEP`: advance the grid by one generation (R105). -/
  | step
  /-- `NBRS x, y`: which neighbours of a cell exist (R97). -/
  | nbrs (x y : Nat)
  /-- `RDREG r`: read a control register (R122). -/
  | rdreg (r : Nat)
  deriving DecidableEq, Repr

end Sys2Proof
end

