-- ==== Sys2Proof/Decode.lean ====
section
/-! DEFINITION. Decoding a command word to its form, and the encoder (`spec/30_encoding.md` R60 to R66).
`decode` needs no configuration: "Operand range checks come after the form" (R63); the checks are in
`Machine/Operands.lean`, and the one-piece procedure of R74 is `Machine/Verdict.lean` (log 11). -/

namespace Sys2Proof

/-- `w[hi:lo]` as an unsigned integer, both ends included (R10). -/
def field (w : Word) (hi lo : Nat) : Nat :=
  w.toNat / 2 ^ lo % 2 ^ (hi + 1 - lo)

/-- The operation code, `w[31:28]` (R61). -/
def opField (w : Word) : Nat := field w 31 28

/-- The cell state operand, `w[27:20]` (R61). -/
def sField (w : Word) : Nat := field w 27 20

/-- The y coordinate, `w[19:10]` (R61). -/
def yField (w : Word) : Nat := field w 19 10

/-- The x coordinate or the register number, `w[9:0]` (R61). -/
def xField (w : Word) : Nat := field w 9 0

/-- Why a word has the form of none of the five commands (R65). Both raise ILLEGAL_CMD. -/
inductive DecodeReject where
  /-- `op` is 0 or in 6 to 15 (R65). -/
  | reservedOpcode
  /-- A defined `op` with a non-zero must-be-zero field (R64). -/
  | nonzeroField
  deriving DecidableEq, Repr

/-- The form of a word (R63, R64, R65): a command with its operands, or the reason it is illegal. -/
def decode (w : Word) : Except DecodeReject Instr :=
  match opField w with
  | 1 => .ok (.wrcell (xField w) (yField w) (sField w))
  | 2 => if sField w = 0 then .ok (.rdcell (xField w) (yField w)) else .error .nonzeroField
  | 3 => if field w 27 0 = 0 then .ok .step else .error .nonzeroField
  | 4 => if sField w = 0 then .ok (.nbrs (xField w) (yField w)) else .error .nonzeroField
  | 5 => if sField w = 0 ∧ yField w = 0 then .ok (.rdreg (xField w)) else .error .nonzeroField
  | _ => .error .reservedOpcode

/-- `op·2^28 + s·2^20 + y·2^10 + x` (R61). -/
def pack (op s y x : Nat) : Word :=
  BitVec.ofNat 32 (op * 2 ^ 28 + s * 2 ^ 20 + y * 2 ^ 10 + x)

/-- The command word of a command whose operands fit their fields (R61, R63, the table of R70). -/
def encode : Instr → Word
  | .wrcell x y v => pack 1 v y x
  | .rdcell x y => pack 2 0 y x
  | .step => pack 3 0 0 0
  | .nbrs x y => pack 4 0 y x
  | .rdreg r => pack 5 0 0 r

/-- The `match` column of R63: the bits of the form that are fixed. -/
def Instr.matchBits : Instr → Word
  | .wrcell _ _ _ => 0x10000000#32
  | .rdcell _ _ => 0x20000000#32
  | .step => 0x30000000#32
  | .nbrs _ _ => 0x40000000#32
  | .rdreg _ => 0x50000000#32

/-- The `mask` column of R63: `op` and every must-be-zero field. -/
def Instr.maskBits : Instr → Word
  | .wrcell _ _ _ => 0xF0000000#32
  | .rdcell _ _ => 0xFFF00000#32
  | .step => 0xFFFFFFFF#32
  | .nbrs _ _ => 0xFFF00000#32
  | .rdreg _ => 0xFFFFFC00#32

/-- The command word whose low `nbits` bits are those of `w` and whose other bits are 0. A command is one 32-bit
word and the port has no byte order (R44, R60; log 12). -/
def tableWord (nbits w : Nat) : Word := BitVec.ofNat 32 (w % 2 ^ nbits)

/-- The command the decoder reads from an opcode-table word, `none` where it refuses. -/
def decodeTableWord (nbits w : Nat) : Option Instr :=
  match decode (tableWord nbits w) with
  | .ok i => some i
  | .error _ => none

end Sys2Proof
end

