-- ==== Sys2Proof/Config.lean ====
section
/-! DEFINITION. The parameters of one instance of the engine (`spec/00_scope.md` R5 to R9). The spec leaves no
value undefined, so no opaque constant is declared here. -/

namespace Sys2Proof

/-- The configuration record: W, H, K and T, fixed at elaboration (R5, R6, R7). A record outside the legal ranges
is not an instance of the hardware (R5, R144), so the ranges are part of the record and such a value cannot be built. -/
structure Config where
  /-- Grid width, the first index x runs over it (R5). -/
  W : Nat
  /-- Grid height, the second index y runs over it (R5). -/
  H : Nat
  /-- Cycle length: a cell is an integer in `[0, K)` (R6). -/
  K : Nat
  /-- THRESHOLD: a cell advances when its count exceeds T (R7). -/
  T : Nat
  W_range : 1 ≤ W ∧ W ≤ 1024 := by decide
  H_range : 1 ≤ H ∧ H ≤ 1024 := by decide
  K_range : 1 ≤ K ∧ K ≤ 256 := by decide
  T_range : T ≤ 15 := by decide
  deriving DecidableEq, Repr

/-- Build a configuration, refusing one that breaks a range of R5, R6 or R7. -/
def Config.build (W H K T : Nat) : Option Config :=
  if h : (1 ≤ W ∧ W ≤ 1024) ∧ (1 ≤ H ∧ H ≤ 1024) ∧ (1 ≤ K ∧ K ≤ 256) ∧ T ≤ 15 then
    some ⟨W, H, K, T, h.1, h.2.1, h.2.2.1, h.2.2.2⟩
  else none

/-- The instance `State.reset` is built for: K = 3 and T = 2 are the spec's reference values (R6, R7).
DESIGN CHOICE, unsafe (log 2): W = H = 4, which the spec leaves OPEN; no statement rests on it. -/
def Config.reference : Config := { W := 4, H := 4, K := 3, T := 2 }

/-- `clog2(n)`: the least b with `2^b ≥ n` (R8); `n ≤ 2^n` bounds the search. -/
def clog2 (n : Nat) : Nat :=
  ((List.range (n + 1)).find? (fun b => n ≤ 2 ^ b)).getD n

/-- Bits of one stored cell (R8). Not observable. -/
def Config.SW (c : Config) : Nat := max 1 (clog2 c.K)

/-- Bits of an in-range x coordinate (R8). Not observable. -/
def Config.XW (c : Config) : Nat := max 1 (clog2 c.W)

/-- Bits of an in-range y coordinate (R8). Not observable. -/
def Config.YW (c : Config) : Nat := max 1 (clog2 c.H)

end Sys2Proof
end

