-- ==== Sys2Proof/Machine/State.lean ====
section
/-! DEFINITION. The state of the engine (`spec/10_state.md` R20), plain data, and its value after reset (R32). -/

namespace Sys2Proof.Machine

/-- A grid buffer: the cells whose state is not 0, as (key, byte) pairs with keys strictly rising. The key of
coordinate `(x, y)` is `coordKey x y` (log 4), a cell that is not listed holds 0, the spec's reset value (R32). -/
abbrev Memory := List Host.Cell

/-- The cause codes of R131, the legal values of the 3-bit field `CAUSE` (R20, R24; log 10). -/
inductive Cause where
  /-- 0: nothing has been violated. -/
  | none
  /-- 1: the word has the form of no command (R132). -/
  | illegalCmd
  /-- 2: a coordinate outside the grid (R133). -/
  | coordRange
  /-- 3: a state operand that is no index of the cycle (R134). -/
  | stateRange
  /-- 4: a reserved register number (R135). -/
  | regRange
  deriving DecidableEq, Repr

/-- What the host does next at the ports (`spec/70_reset_and_hazards.md` section 4; log 3). -/
inductive HostEvent where
  /-- The engine accepts a command word and executes it (R49, R73). -/
  | command (w : Word)
  /-- `rst` is asserted while no command is in flight (R160). -/
  | reset
  /-- `rst` is asserted while this command is in flight, after it was accepted and before its response is delivered
  (R161; log 7). -/
  | resetDuring (w : Word)
  deriving DecidableEq, Repr

/-- The state. `buf0`, `buf1`, `sel`, `fault` and `cause` are the five items of R20, all the engine has. `cfg` is
the instance's parameters, which the spec does not count as state and which nothing changes (log 1). `inbox` and
`responses` are the host's side of the two channels (log 3). -/
structure State where
  /-- W, H, K, T of this instance (R5 to R7): constant. -/
  cfg : Config
  /-- `BUF[0]` (R20, R21). -/
  buf0 : Memory
  /-- `BUF[1]` (R20, R21). -/
  buf1 : Memory
  /-- `SEL`, true for 1 (R23). -/
  sel : Bool
  /-- `FAULT`, true for 1 (R24). -/
  fault : Bool
  /-- `CAUSE` (R24, R131). -/
  cause : Cause
  /-- What the host does from now on, the next event first (the model's own field, log 3). -/
  inbox : List HostEvent
  /-- The response words delivered so far, the oldest first (the model's own field, log 3). -/
  responses : List Word
  deriving DecidableEq, Repr

/-- Why a step stops with a fault. The spec's own faults are not here: they are next states (R137). -/
inductive Fault where
  /-- Raised by WRCELL, RDCELL and STEP when a cell access breaks a requirement of R41 or meets a stored value `≥ K`, and by
  NBRS when the locator is outside its precondition (R96). Only the stored value can happen, in RDCELL and STEP, since the
  operands have been checked; R144 says that such a state never occurs and that a model must not define a behaviour for
  it. Safe: the machine stops (log 5, log 15). -/
  | cellOutOfRange
  deriving DecidableEq, Repr

/-- Why an instruction has no meaning in the model. -/
inductive Refusal where
  /-- Raised by an arm of `exec` whose instruction has no meaning yet. No arm raises it in this model. Safe. -/
  | notModelled (mnemonic : String)
  deriving DecidableEq, Repr

/-- The state of an instance right after reset (R32): `SEL`, `FAULT` and `CAUSE` are 0 and every cell of both buffers
is 0. The host's two lists start empty (log 3). -/
def State.resetOf (cfg : Config) : State where
  cfg := cfg
  buf0 := []
  buf1 := []
  sel := false
  fault := false
  cause := .none
  inbox := []
  responses := []

/-- The state right after reset, for the reference configuration (log 2). -/
def State.reset : State := State.resetOf Config.reference

end Sys2Proof.Machine
end

