-- ==== Sys2Proof/Machine/Flags.lean ====
section
/-! DEFINITION. The one status flag `FAULT` with its field `CAUSE`, the STATUS register made of them, and the status
codes of a response (R24, R27, R68, R131). No command computes any other flag (R24, R114). -/

namespace Sys2Proof.Machine

/-- The three bits of `CAUSE` (R27, R131). -/
def Cause.code : Cause → BitVec 3
  | .none => 0#3
  | .illegalCmd => 1#3
  | .coordRange => 2#3
  | .stateRange => 3#3
  | .regRange => 4#3

/-- The status codes of R68; 5, 6 and 8 to 15 are never produced. -/
inductive Status where
  /-- 0: the command was executed. -/
  | ok
  /-- 1 to 4: this command raised the fault of that cause. -/
  | raised (c : Cause)
  /-- 7: the engine was already faulted and the command was refused. -/
  | faulted
  deriving DecidableEq, Repr

/-- The four status bits of a response (R68): "Statuses 1 to 4 equal the cause code". -/
def Status.code : Status → BitVec 4
  | .ok => 0#4
  | .raised c => c.code.zeroExtend 4
  | .faulted => 7#4

/-- Set `FAULT` and record the cause (R137). -/
def setFault (c : Cause) (s : State) : State := { s with fault := true, cause := c }

/-- `REG[0] = zext_28({CAUSE[2:0], FAULT, SEL})` (R27). -/
def statusRegister (s : State) : Payload :=
  (s.cause.code ++ (BitVec.ofBool s.fault ++ BitVec.ofBool s.sel)).zeroExtend 28

end Sys2Proof.Machine
end

