-- ==== Sys2Proof/Machine/Ops.lean ====
section
/-! DEFINITION. The named operations over the grid buffers, the select bit, the response channel, fault entry and
reset (R41, R23, R67, R137, R138, R160). -/

namespace Sys2Proof.Machine

/-- The key of coordinate `(x, y)`: the low 20 bits of a command word that names it. No linear address is visible
(R40); this one is the model's (DESIGN CHOICE, safe, log 4). -/
def coordKey (x y : Nat) : Nat := y * 1024 + x

/-- What a cell that no entry lists reads as: 0, the reset value of every cell (R32). -/
def unlisted : CellByte := 0#8

/-- The byte held under a key. -/
def Memory.read : Memory → Nat → CellByte
  | [], _ => unlisted
  | (k, v) :: rest, a => if k = a then v else Memory.read rest a

/-- Put an entry in front of the first entry with a larger key. -/
def Memory.insert (k : Nat) (v : CellByte) : Memory → Memory
  | [] => [(k, v)]
  | c :: rest => if k < c.1 then (k, v) :: c :: rest else c :: Memory.insert k v rest

/-- Store a byte under a key. Storing what an unlisted cell reads as leaves no entry, which keeps the form canonical. -/
def Memory.write (m : Memory) (k : Nat) (v : CellByte) : Memory :=
  let others := m.filter (fun c => decide (c.1 ≠ k))
  if v = unlisted then others else Memory.insert k v others

/-- The canonical form: keys strictly rise and no entry equals what an unlisted cell reads as. -/
abbrev Memory.wf (m : Memory) : Prop :=
  m.Pairwise (fun c d => c.1 < d.1) ∧ ∀ c ∈ m, c.2 ≠ unlisted

/-- Every listed entry is a coordinate of the grid and holds a state in `[0, K)` (R21, R22, R33). -/
abbrev Memory.within (cfg : Config) (m : Memory) : Prop :=
  ∀ c ∈ m, c.1 % 1024 < cfg.W ∧ c.1 / 1024 < cfg.H ∧ c.2.toNat < cfg.K

/-- The state of the cell at `(x, y)` of a grid (`G[x][y]`, R11). The spec gives it for coordinates of the grid only. What
this function of Lean gives for others is no behaviour of the hardware (DESIGN CHOICE, log 17). -/
def cellAt (g : Memory) (x y : Nat) : Nat := (Memory.read g (coordKey x y)).toNat

/-- `BUF[b]` (R20, R41). -/
def State.buf (b : Bool) (s : State) : Memory := if b then s.buf1 else s.buf0

/-- Replace `BUF[b]` (R20, R41). -/
def State.setBuf (b : Bool) (m : Memory) (s : State) : State :=
  if b then { s with buf1 := m } else { s with buf0 := m }

/-- The front buffer `F = BUF[SEL]` (R23). -/
def State.front (s : State) : Memory := s.buf s.sel

/-- The back buffer `B = BUF[1 - SEL]` (R23). -/
def State.back (s : State) : Memory := s.buf (!s.sel)

/-- `CellRead(b, x, y)` (R41): `BUF[b][x][y]`, and no behaviour outside its requirements (R41) or where the stored value is
no state of the cycle (R144). -/
def cellRead (b : Bool) (x y : Nat) (s : State) : Option Nat :=
  if x < s.cfg.W ∧ y < s.cfg.H ∧ cellAt (s.buf b) x y < s.cfg.K then some (cellAt (s.buf b) x y) else none

/-- The state in which `BUF[b][x][y]` is `v`, no other cell and nothing else changed. Used by `cellWrite` alone, whose
requirements make `v` fit its byte (log 17). -/
def storeCell (b : Bool) (x y v : Nat) (s : State) : State :=
  s.setBuf b (Memory.write (s.buf b) (coordKey x y) (BitVec.ofNat 8 v))

/-- `CellWrite(b, x, y, v)` (R41), and no behaviour outside its requirements. -/
def cellWrite (b : Bool) (x y v : Nat) (s : State) : Option State :=
  if x < s.cfg.W ∧ y < s.cfg.H ∧ v < s.cfg.K then some (storeCell b x y v s) else none

/-- Go on with what a cell access or the locator gave. Where it has no behaviour the machine stops (R41, R96, R144; log 5,
log 15). -/
def withAccess {α : Type} (access : Option α) (effect : α → Host.Outcome State Fault Refusal) :
    Host.Outcome State Fault Refusal :=
  match access with
  | some a => effect a
  | none => .fault .cellOutOfRange

/-- `SEL <- 1 - SEL` (R105). -/
def toggleSel (s : State) : State := { s with sel := !s.sel }

/-- `{status[3:0], payload[27:0]}` (R67). -/
def responseWord (st : Status) (p : Payload) : Word := st.code ++ p

/-- `respond(status, payload)`: deliver the one response word of the command (R11, R67, R73). -/
def respond (st : Status) (p : Payload) (s : State) : State :=
  { s with responses := s.responses ++ [responseWord st p] }

/-- Fault entry, the one way an exception is taken (R137): set `FAULT`, record the cause, answer with it.
No cell and not `SEL`. -/
def raiseFault (c : Cause) (s : State) : State := respond (.raised c) 0#28 (setFault c s)

/-- The answer of the faulted state to every word but a legal RDREG (R138): status FAULTED, no state change. -/
def refuse (s : State) : State := respond .faulted 0#28 s

/-- A word that violates a contract or the encoding: fault entry, or, when the engine is already faulted, the refusal
that keeps the first cause (R74, R137, R138). -/
def violated (c : Cause) (s : State) : State := if s.fault then refuse s else raiseFault c s

/-- A command that a faulted engine refuses (R74): its operand check, then the faulted state, then its own effect. -/
def perform (violation : Option Cause) (effect : State → Host.Outcome State Fault Refusal) (s : State) :
    Host.Outcome State Fault Refusal :=
  match violation with
  | some c => .next (violated c s)
  | none => if s.fault then .next (refuse s) else effect s

/-- Reset, the only way out of the faulted state (R139, R160, R161): the state of R32. The configuration is constant, and
what the host has received and will send is the host's. -/
def hostReset (s : State) : State :=
  { s with buf0 := [], buf1 := [], sel := false, fault := false, cause := .none }

/-- The host's next event, and the state once it has been taken from the host's list (R49). -/
def nextEvent (s : State) : Option (HostEvent × State) :=
  match s.inbox with
  | [] => none
  | e :: rest => some (e, { s with inbox := rest })

/-- The host presents one more command word, in front of everything else it has to send. -/
def presentWord (w : Word) (s : State) : State := { s with inbox := .command w :: s.inbox }

end Sys2Proof.Machine
end

