-- ==== Sys2Proof/Machine/Operands.lean ====
section
/-! DEFINITION. The operand checks of the commands and the control registers (R27 to R29, R133 to R136). -/

namespace Sys2Proof.Machine

/-- `(x, y)` is a coordinate of the grid (R40). -/
def inGrid (cfg : Config) (x y : Nat) : Bool := decide (x < cfg.W) && decide (y < cfg.H)

/-- The check of a coordinate operand (R133). -/
def coordViolation (cfg : Config) (x y : Nat) : Option Cause :=
  if inGrid cfg x y then none else some .coordRange

/-- The checks of WRCELL, the coordinate before the state (R133, R134, R136). -/
def wrcellViolation (cfg : Config) (x y v : Nat) : Option Cause :=
  match coordViolation cfg x y with
  | some c => some c
  | none => if v < cfg.K then none else some .stateRange

/-- `REG[r]`, none for a reserved number (R27, R28, R29). -/
def readRegister (r : Nat) (s : State) : Option Payload :=
  match r with
  | 0 => some (statusRegister s)
  | 1 => some (BitVec.ofNat 28 s.cfg.W)
  | 2 => some (BitVec.ofNat 28 s.cfg.H)
  | 3 => some (BitVec.ofNat 28 s.cfg.K)
  | 4 => some (BitVec.ofNat 28 s.cfg.T)
  | _ => none

end Sys2Proof.Machine
end

