-- ==== Sys2Proof/Machine/GridAccess.lean ====
section
/-! DEFINITION. WRCELL, RDCELL and RDREG (`spec/42_grid_access.md` R120 to R122). -/

namespace Sys2Proof.Machine

/-- What a WRCELL does once its operands are checked and the engine is not faulted (R120). -/
def writeFront (x y v : Nat) (s : State) : Host.Outcome State Fault Refusal :=
  withAccess (cellWrite s.sel x y v s) (fun t => .next (respond .ok 0#28 t))

/-- WRCELL x, y, s (R120): `F[x][y] <- s`, nothing else. -/
def execWrcell (x y v : Nat) (s : State) : Host.Outcome State Fault Refusal :=
  perform (wrcellViolation s.cfg x y v) (writeFront x y v) s

/-- What an RDCELL does once its operands are checked and the engine is not faulted (R121): the response is
`zext_28(F[x][y])`. -/
def readFront (x y : Nat) (s : State) : Host.Outcome State Fault Refusal :=
  withAccess (cellRead s.sel x y s) (fun v => .next (respond .ok (BitVec.ofNat 28 v) s))

/-- RDCELL x, y (R121): no state change. -/
def execRdcell (x y : Nat) (s : State) : Host.Outcome State Fault Refusal :=
  perform (coordViolation s.cfg x y) (readFront x y) s

/-- RDREG r (R122): a defined register is read whether or not the engine is faulted. -/
def execRdreg (r : Nat) (s : State) : Host.Outcome State Fault Refusal :=
  match readRegister r s with
  | some p => .next (respond .ok p s)
  | none => .next (violated .regRange s)

end Sys2Proof.Machine
end

