-- ==== Sys2Proof/Machine/Locator.lean ====
section
/-! DEFINITION. The neighbourhood locator and the NBRS command (`spec/40_locator.md` R90 to R97). -/

namespace Sys2Proof.Machine

/-- The eight offsets `(dx, dy)` in the order of their index 0 to 7 (R90). -/
def offsets : List (Int × Int) :=
  [(-1, -1), (-1, 0), (-1, 1), (0, -1), (0, 1), (1, -1), (1, 0), (1, 1)]

/-- The bounds predicate `0 ≤ nx < W ∧ 0 ≤ ny < H`, on integers (R91, R93): no wrap-around. -/
def inb (cfg : Config) (nx ny : Int) : Bool :=
  decide (0 ≤ nx) && decide (nx < cfg.W) && decide (0 ≤ ny) && decide (ny < cfg.H)

/-- A value of the locator's contract, which has one for coordinates of the grid and no other (R96; log 15). -/
def located {α : Type} (cfg : Config) (x y : Nat) (value : α) : Option α :=
  if inGrid cfg x y then some value else none

/-- `valid_i(x, y)` for the offset `d` (R92), the sums computed on integers (R93). -/
def validOffset (cfg : Config) (x y : Nat) (d : Int × Int) : Option Bool :=
  located cfg x y (inb cfg (x + d.1) (y + d.2))

/-- The neighbour at offset `d`, none where there is no such neighbour (R92). -/
def neighbourAt (cfg : Config) (x y : Nat) (d : Int × Int) : Option (Nat × Nat) :=
  match validOffset cfg x y d with
  | some true => some (((x : Int) + d.1).toNat, ((y : Int) + d.2).toNat)
  | some false => none
  | none => none

/-- The number whose bit i is the i-th entry. -/
def bitsToNat : List Bool → Nat
  | [] => 0
  | b :: rest => b.toNat + 2 * bitsToNat rest

/-- The neighbour mask: bit i says whether neighbour i exists (R92). -/
def nbrmask (cfg : Config) (x y : Nat) : Option (BitVec 8) :=
  located cfg x y (BitVec.ofNat 8 (bitsToNat (offsets.map (fun d => (neighbourAt cfg x y d).isSome))))

/-- The number of neighbours that exist (R92). -/
def nbrcount (cfg : Config) (x y : Nat) : Option Nat :=
  located cfg x y (offsets.countP (fun d => (neighbourAt cfg x y d).isSome))

/-- The set of neighbours, in the order of their index (R92, R94). -/
def neighbors (cfg : Config) (x y : Nat) : Option (List (Nat × Nat)) :=
  located cfg x y (offsets.filterMap (neighbourAt cfg x y))

/-- `{c[3:0], m[7:0]}` zero-extended: `256·c + m` (R97). -/
def nbrsPayload (cfg : Config) (x y : Nat) : Option Payload :=
  match nbrcount cfg x y, nbrmask cfg x y with
  | some c, some m => some ((BitVec.ofNat 4 c ++ m).zeroExtend 28)
  | _, _ => none

/-- What an NBRS does once its operands are checked and the engine is not faulted (R97). It reads no cell. -/
def answerNbrs (x y : Nat) (s : State) : Host.Outcome State Fault Refusal :=
  withAccess (nbrsPayload s.cfg x y) (fun p => .next (respond .ok p s))

/-- NBRS x, y (R97). -/
def execNbrs (x y : Nat) (s : State) : Host.Outcome State Fault Refusal :=
  perform (coordViolation s.cfg x y) (answerNbrs x y) s

end Sys2Proof.Machine
end

