-- ==== Sys2Proof/Machine/Stepper.lean ====
section
/-! DEFINITION. The generation stepper and the STEP command (`spec/41_stepper.md` R100 to R105, R110). The per-cell
functions and the step function are given by the spec for coordinates of the grid and states in `[0, K)`. In Lean they are
total, and what they give on other arguments is no behaviour of the hardware (R144; DESIGN CHOICE, log 17): `generation` and
the micro-steps stop before they use it. -/

namespace Sys2Proof.Machine

/-- The successor in the cycle, `(c + 1) mod K` (R100), again a state of it (R110): the test is on integers, the modulus is K
(R114, R168). For `c ≥ K` the value has no meaning (R144; DESIGN CHOICE, log 17). -/
def succState (cfg : Config) (c : Nat) : Nat := if c + 1 = cfg.K then 0 else c + 1

/-- `hit_i`: the neighbour at offset `d` exists and holds the successor of the cell (R101). The neighbour is read only
when it exists. -/
def hit (cfg : Config) (g : Memory) (x y : Nat) (d : Int × Int) : Bool :=
  match neighbourAt cfg x y d with
  | some c => decide (cellAt g c.1 c.2 = succState cfg (cellAt g x y))
  | none => false

/-- The number of qualifying neighbours, 0 to 8 (R101). For a stored state `≥ K` in the neighbourhood the value has no meaning
(R144; DESIGN CHOICE, log 17). -/
def qualifying (cfg : Config) (g : Memory) (x y : Nat) : Nat := offsets.countP (hit cfg g x y)

/-- The threshold comparison, strict (R102). -/
def advances (cfg : Config) (g : Memory) (x y : Nat) : Bool := decide (cfg.T < qualifying cfg g x y)

/-- The next state of a cell, the output multiplexer (R103). It is the old state or its successor, so it stays in `[0, K)`
(R110). For a stored state `≥ K` in the neighbourhood the value has no meaning (R144; DESIGN CHOICE, log 17). -/
def cellnext (cfg : Config) (g : Memory) (x y : Nat) : Nat :=
  if advances cfg g x y then succState cfg (cellAt g x y) else cellAt g x y

/-- All coordinates of the grid, y outer and x inner (the order is of no consequence, R107). -/
def allCoords (cfg : Config) : List (Nat × Nat) :=
  (List.range cfg.H).flatMap (fun y => (List.range cfg.W).map (fun x => (x, y)))

/-- The entry that lists a cell of the next generation, none for a cell that becomes 0. -/
def nextEntry (cfg : Config) (g : Memory) (c : Nat × Nat) : Option Host.Cell :=
  let v := BitVec.ofNat 8 (cellnext cfg g c.1 c.2)
  if v = unlisted then none else some (coordKey c.1 c.2, v)

/-- The step function on grids (R104): every `cellnext` on the same grid, never on cells already updated (R50, R163), and
every cell of the result in `[0, K)` (R110). -/
def stepGrid (cfg : Config) (g : Memory) : Memory := (allCoords cfg).filterMap (nextEntry cfg g)

/-- Every cell of the grid is in `[0, K)` (R22). The STEP of R105 and the micro-steps of R106 check it first, since R144
gives a stepper that reads another value no behaviour. -/
def statesInRange (cfg : Config) (g : Memory) : Bool := g.all (fun c => decide (c.2.toNat < cfg.K))

/-- What a STEP does once it is decoded and the engine is not faulted (R105): the back buffer becomes `step(F)`, then
the swap, then the response. A front buffer with a state `≥ K` has no behaviour (R144; log 5). -/
def generation (s : State) : Host.Outcome State Fault Refusal :=
  if statesInRange s.cfg s.front then
    .next (respond .ok 0#28 (toggleSel (s.setBuf (!s.sel) (stepGrid s.cfg s.front))))
  else .fault .cellOutOfRange

/-- STEP (R105). It has no operand to violate. -/
def execStep (s : State) : Host.Outcome State Fault Refusal := perform none generation s

end Sys2Proof.Machine
end

