-- ==== Sys2Proof/Machine/Dispatch.lean ====
section
/-! DEFINITION. One arm per command. -/

namespace Sys2Proof.Machine

def exec (i : Instr) (s : State) : Host.Outcome State Fault Refusal :=
  match i with
  | .wrcell x y v => Sys2Proof.Machine.execWrcell x y v s
  | .rdcell x y => Sys2Proof.Machine.execRdcell x y s
  | .step => Sys2Proof.Machine.execStep s
  | .nbrs x y => Sys2Proof.Machine.execNbrs x y s
  | .rdreg r => Sys2Proof.Machine.execRdreg r s

end Sys2Proof.Machine
end

