-- ==== Sys2Proof/Machine/Step.lean ====
section
/-! DEFINITION. One step: the engine takes the host's next event (R49). -/

namespace Sys2Proof.Machine

/-- Execute one accepted command word (R74). A word with the form of no command violates the encoding (R65, R132). -/
def runWord (w : Word) (s : State) : Host.Outcome State Fault Refusal :=
  match Sys2Proof.decode w with
  | .ok i => exec i s
  | .error _ => .next (violated .illegalCmd s)

/-- One step. With nothing to do the engine is idle and keeps all state (R143; log 8). -/
def step (s : State) : Host.Outcome State Fault Refusal :=
  match nextEvent s with
  | none => .next s
  | some (.command w, t) => runWord w t
  | some (.reset, t) => .next (hostReset t)
  | some (.resetDuring _, t) => .next (hostReset t)

/-- The state in which the host presents this word next. The engine fetches nothing (R26), the word comes from the
host's port (log 3). -/
def State.withFetchWord (s : State) (nbits w : Nat) : State := presentWord (Sys2Proof.tableWord nbits w) s

end Sys2Proof.Machine
end

