-- ==== Sys2Proof/WellFormed.lean ====
section
/-! DEFINITION. Which commands have an encoding: every operand fits its field (R61, and the range check of R70). -/

namespace Sys2Proof

/-- An x or y coordinate, or a register number, fits its ten bits (R61, R70). -/
def fitsTen (n : Nat) : Bool := decide (n ≤ 1023)

/-- A cell state fits the eight bits of field `s` (R61, R70). -/
def fitsEight (n : Nat) : Bool := decide (n ≤ 255)

/-- The assembler's range check of R70: it knows the fields, not the configuration. -/
def Instr.wf : Instr → Bool
  | .wrcell x y v => fitsTen x && fitsTen y && fitsEight v
  | .rdcell x y => fitsTen x && fitsTen y
  | .step => true
  | .nbrs x y => fitsTen x && fitsTen y
  | .rdreg r => fitsTen r

end Sys2Proof
end

