-- ==== Sys2Proof/Machine/Assembler.lean ====
section
/-! DEFINITION. The assembler syntax and the pseudo-commands (`spec/30_encoding.md` R70, R71), the notation in which the
spec writes what the driver sends (R123 to R125). Nothing here is executed by the engine, it yields command words. -/

namespace Sys2Proof.Machine

/-- One line of assembler (R70, R71). -/
inductive AsmLine where
  /-- One of the five commands. -/
  | instr (i : Instr)
  /-- `.word v`: the 32-bit word v itself, legal or not. -/
  | word (v : Nat)
  /-- `STATUS`. -/
  | status
  /-- `RUN n`. -/
  | run (n : Nat)
  /-- `SEED g`: a grid literal, H rows of W states. -/
  | seed (rows : List (List Nat))
  /-- `DUMP`. -/
  | dump
  deriving DecidableEq, Repr

/-- The commands of `SEED` for the grid that has `g x y` at `(x, y)`: y outer, x inner (R71, R123). -/
def seedCommands (cfg : Config) (g : Nat → Nat → Nat) : List Instr :=
  (allCoords cfg).map (fun c => .wrcell c.1 c.2 (g c.1 c.2))

/-- The commands of `DUMP` (R71, R124). -/
def dumpCommands (cfg : Config) : List Instr := (allCoords cfg).map (fun c => .rdcell c.1 c.2)

/-- The commands of `RUN n` (R71, R125). -/
def runCommands (n : Nat) : List Instr := List.replicate n .step

/-- A grid literal has H rows of W states (R71). -/
def literalFits (cfg : Config) (rows : List (List Nat)) : Bool :=
  decide (rows.length = cfg.H) && rows.all (fun r => decide (r.length = cfg.W))

/-- The commands a line stands for (R71), none for `.word` and for a literal of the wrong shape. -/
def AsmLine.commands (cfg : Config) : AsmLine → Option (List Instr)
  | .instr i => some [i]
  | .word _ => none
  | .status => some [.rdreg 0]
  | .run n => some (runCommands n)
  | .seed rows =>
    if literalFits cfg rows then some (seedCommands cfg (fun x y => (rows.getD y []).getD x 0)) else none
  | .dump => some (dumpCommands cfg)

/-- The words a line assembles to, none where an operand does not fit its field. The assembler does not check operands
against W, H or K (R70). -/
def AsmLine.words (cfg : Config) : AsmLine → Option (List Word)
  | .word v => if v < 2 ^ 32 then some [BitVec.ofNat 32 v] else none
  | line =>
    match line.commands cfg with
    | some is => if is.all Instr.wf then some (is.map encode) else none
    | none => none

/-- The pieces of a text between the separators. -/
def splitText (isSep : Char → Bool) : List Char → List (List Char)
  | [] => [[]]
  | c :: rest =>
    match splitText isSep rest with
    | [] => [[c]]
    | piece :: pieces => if isSep c then [] :: piece :: pieces else (c :: piece) :: pieces

/-- A blank of the notation (DESIGN CHOICE, log 13). -/
def isBlank (c : Char) : Bool := c == ' ' || c == '\t' || c == '\r'

/-- A text without the blanks at its two ends. -/
def trimText (t : List Char) : List Char :=
  ((t.dropWhile isBlank).reverse.dropWhile isBlank).reverse

/-- The text before a `#`, which starts a comment (R70). -/
def dropComment (t : List Char) : List Char := t.takeWhile (fun c => c != '#')

/-- The value of a digit in a base of at most 16 (log 13: hexadecimal digits in either case). -/
def digitValue (base : Nat) (c : Char) : Option Nat :=
  let n := c.toNat
  let v :=
    if 48 ≤ n ∧ n ≤ 57 then some (n - 48)
    else if 65 ≤ n ∧ n ≤ 70 then some (n - 55)
    else if 97 ≤ n ∧ n ≤ 102 then some (n - 87)
    else none
  v.bind (fun d => if d < base then some d else none)

/-- The value of a row of digits, most significant first. -/
def digitsValue (base : Nat) (acc : Nat) : List Char → Option Nat
  | [] => some acc
  | c :: rest =>
    match digitValue base c with
    | some d => digitsValue base (acc * base + d) rest
    | none => none

/-- An operand: an unsigned integer, decimal or `0x` hexadecimal (R70). -/
def parseNumber (t : List Char) : Option Nat :=
  match trimText t with
  | [] => none
  | ['0', 'x'] => none
  | '0' :: 'x' :: ds => digitsValue 16 0 ds
  | ds => digitsValue 10 0 ds

/-- Every entry parsed, or none. -/
def parseAll (texts : List (List Char)) : Option (List Nat) :=
  match texts with
  | [] => some []
  | t :: rest =>
    match parseNumber t, parseAll rest with
    | some n, some ns => some (n :: ns)
    | _, _ => none

/-- Operands separated by commas (R70). -/
def parseOperands (t : List Char) : Option (List Nat) :=
  if trimText t = [] then some [] else parseAll (splitText (· == ',') t)

/-- One row of a grid literal: states separated by blanks (R71, R12). -/
def parseRow (t : List Char) : Option (List Nat) :=
  parseAll ((splitText isBlank t).filter (fun piece => !piece.isEmpty))

/-- Every row parsed, or none. -/
def parseRows (rows : List (List Char)) : Option (List (List Nat)) :=
  match rows with
  | [] => some []
  | r :: rest =>
    match parseRow r, parseRows rest with
    | some ns, some nss => some (ns :: nss)
    | _, _ => none

/-- One line of assembler text without its comment: a mnemonic in upper case and its operands (R70). -/
def parseLine (t : List Char) : Option AsmLine :=
  let line := trimText t
  let name := line.takeWhile (fun c => !isBlank c)
  let rest := line.dropWhile (fun c => !isBlank c)
  if name = "SEED".toList then (parseRows (splitText (· == '/') rest)).map .seed
  else
    match parseOperands rest with
    | none => none
    | some ops =>
      if name = "WRCELL".toList then
        match ops with
        | [x, y, v] => some (.instr (.wrcell x y v))
        | _ => none
      else if name = "RDCELL".toList then
        match ops with
        | [x, y] => some (.instr (.rdcell x y))
        | _ => none
      else if name = "STEP".toList then
        match ops with
        | [] => some (.instr .step)
        | _ => none
      else if name = "NBRS".toList then
        match ops with
        | [x, y] => some (.instr (.nbrs x y))
        | _ => none
      else if name = "RDREG".toList then
        match ops with
        | [r] => some (.instr (.rdreg r))
        | _ => none
      else if name = ".word".toList then
        match ops with
        | [v] => some (.word v)
        | _ => none
      else if name = "STATUS".toList then
        match ops with
        | [] => some .status
        | _ => none
      else if name = "RUN".toList then
        match ops with
        | [n] => some (.run n)
        | _ => none
      else if name = "DUMP".toList then
        match ops with
        | [] => some .dump
        | _ => none
      else none

/-- The words of a list of lines; an empty line, or one with a comment only, gives none. -/
def assembleLines (cfg : Config) : List (List Char) → Option (List Word)
  | [] => some []
  | t :: rest =>
    let line := trimText (dropComment t)
    if line = [] then assembleLines cfg rest
    else
      match (parseLine line).bind (fun l => l.words cfg), assembleLines cfg rest with
      | some ws, some more => some (ws ++ more)
      | _, _ => none

/-- The command words of an assembler text, one command a line (R70). -/
def assemble (cfg : Config) (text : List Char) : Option (List Word) := assembleLines cfg (splitText (· == '\n') text)

end Sys2Proof.Machine
end

