-- ==== Sys2Proof/Machine/Micro.lean ====
section
/-! DEFINITION. The micro-step view of STEP (`spec/41_stepper.md` R106, `spec/10_state.md` R30): the hidden state of a
STEP in progress and the micro-steps that act on it. `exec` runs STEP as one atomic transition (R105); that every
schedule of these micro-steps ends where it does (R107) is a statement (log 6). -/

namespace Sys2Proof.Machine

/-- The engine while it executes a STEP (R30): the architectural state, and `PENDING`, the cells of the back buffer not
yet written. The busy indication is that such a value exists: the command port is not ready (R165). A value that no
schedule reaches from `acceptStep` is no state of the engine (log 18). -/
structure StepProgress where
  arch : State
  pending : List (Nat × Nat)
  deriving DecidableEq, Repr

/-- Accepting a legal STEP: `PENDING <- [0, W) × [0, H)` (R106). R106 gives it for `FAULT = 0` only; with `FAULT = 1` there is
no such acceptance, since the STEP is refused (R138). -/
def acceptStep (s : State) : Option StepProgress :=
  if s.fault then none else some ⟨s, allCoords s.cfg⟩

/-- A micro-step has a behaviour: the STEP was accepted with `FAULT = 0` (R106), which no micro-step changes, and the front
buffer holds states of the cycle only (R144; log 5, log 18). -/
def microAllowed (s : State) : Bool := !s.fault && statesInRange s.cfg s.front

/-- Write one cell of the back buffer with its next state, computed from the front buffer of `from_` (R106). -/
def writeNext (from_ : State) (c : Nat × Nat) (s : State) : Option State :=
  cellWrite (!from_.sel) c.1 c.2 (cellnext from_.cfg from_.front c.1 c.2) s

/-- `writeNext` for a group of cells, each computed from the front buffer of `from_`. -/
def writeGroup (from_ : State) : List (Nat × Nat) → State → Option State
  | [], s => some s
  | c :: rest, s => (writeNext from_ c s).bind (writeGroup from_ rest)

/-- The lanes of R9 and R106: `CELLUPD` for any number of different pending cells at the same time. Every lane reads the
state before the group. None when a cell is not pending or is named twice, and where a micro-step has no behaviour. -/
def cellUpdates (group : List (Nat × Nat)) (p : StepProgress) : Option StepProgress :=
  if group.Nodup ∧ (∀ c ∈ group, c ∈ p.pending) ∧ microAllowed p.arch = true then
    (writeGroup p.arch group p.arch).map fun s => ⟨s, p.pending.filter (fun c => decide (c ∉ group))⟩
  else none

/-- `CELLUPD(x, y)` alone (R106). -/
def cellUpdate (x y : Nat) (p : StepProgress) : Option StepProgress := cellUpdates [(x, y)] p

/-- `SWAP` (R106): only when nothing is pending. Then the response, and the port becomes ready. None, as in
`cellUpdates`, where a micro-step has no behaviour. -/
def swapMicro (p : StepProgress) : Option State :=
  if p.pending = [] ∧ microAllowed p.arch = true then some (respond .ok 0#28 (toggleSel p.arch)) else none

/-- Reset cuts in at any micro-step (R106, R161): the state is the reset state and no response is delivered. -/
def abandonStep (p : StepProgress) : State := hostReset p.arch

/-- A schedule: groups of cells, updated one group after another. None when a group is not allowed. -/
def runSchedule : List (List (Nat × Nat)) → StepProgress → Option StepProgress
  | [], p => some p
  | group :: rest, p =>
    match cellUpdates group p with
    | some q => runSchedule rest q
    | none => none

/-- A STEP in progress: accepted, and then updated by this schedule. None where the STEP is not accepted or the schedule not
allowed. -/
def scheduleStep (groups : List (List (Nat × Nat))) (s : State) : Option StepProgress :=
  (acceptStep s).bind (runSchedule groups)

end Sys2Proof.Machine
end

