-- ==== Sys2Proof/Machine/Verdict.lean ====
section
/-! DEFINITION. The one-piece decoding procedure of R74, which knows the configuration. The machine decodes the form
first and lets each meaning check its operands; that the two agree is a statement (log 11). -/

namespace Sys2Proof.Machine

/-- A legal command with its operands, or one violation cause (R74). -/
inductive Verdict where
  | legal (i : Instr)
  | viol (c : Cause)
  deriving DecidableEq, Repr

/-- `decode(w)` of R74, check by check in its order. -/
def verdict (cfg : Config) (w : Word) : Verdict :=
  let s := sField w
  let y := yField w
  let x := xField w
  match opField w with
  | 1 =>
    if x ≥ cfg.W ∨ y ≥ cfg.H then .viol .coordRange
    else if s ≥ cfg.K then .viol .stateRange
    else .legal (.wrcell x y s)
  | 2 =>
    if s ≠ 0 then .viol .illegalCmd
    else if x ≥ cfg.W ∨ y ≥ cfg.H then .viol .coordRange
    else .legal (.rdcell x y)
  | 3 =>
    if field w 27 0 ≠ 0 then .viol .illegalCmd
    else .legal .step
  | 4 =>
    if s ≠ 0 then .viol .illegalCmd
    else if x ≥ cfg.W ∨ y ≥ cfg.H then .viol .coordRange
    else .legal (.nbrs x y)
  | 5 =>
    if s ≠ 0 ∨ y ≠ 0 then .viol .illegalCmd
    else if x ≥ 5 then .viol .regRange
    else .legal (.rdreg x)
  | _ => .viol .illegalCmd

end Sys2Proof.Machine
end

