-- ==== Sys2Proof/Safety.lean ====
section
/-! DEFINITION. The invariants of the spec and what a safe run is, in the terms the statements use. -/

namespace Sys2Proof.Machine

/-- The state invariant. Both buffers have the canonical form and hold only coordinates of the grid with states in
`[0, K)` (R22, R33), and `CAUSE` is 0 exactly while `FAULT` is 0 (R24). -/
structure State.Inv (s : State) : Prop where
  wf0 : Memory.wf s.buf0
  wf1 : Memory.wf s.buf1
  within0 : Memory.within s.cfg s.buf0
  within1 : Memory.within s.cfg s.buf1
  cause_iff : s.cause = .none ↔ s.fault = false

/-- The invariant as a check that runs. -/
abbrev State.InvCheck (s : State) : Prop :=
  Memory.wf s.buf0 ∧ Memory.wf s.buf1 ∧ Memory.within s.cfg s.buf0 ∧ Memory.within s.cfg s.buf1 ∧
    (s.cause = .none ↔ s.fault = false)

/-- The machine goes on. -/
def Completes (o : Host.Outcome State Fault Refusal) : Prop := ∃ t, o = .next t

/-- The state after `n` steps of the machine, or the stop on the way. -/
def runSteps (n : Nat) (s : State) : Host.Outcome State Fault Refusal := Host.Core.run Sys2Proof.core n s

/-- One more command after an outcome: the single-command function of R49, stopping where the machine stops. -/
def thenWord (o : Host.Outcome State Fault Refusal) (w : Word) : Host.Outcome State Fault Refusal :=
  match o with
  | .next t => runWord w t
  | .fault r => .fault r
  | .refused r => .refused r

/-- The event is one of the two resets. -/
def HostEvent.isReset : HostEvent → Bool
  | .command _ => false
  | .reset => true
  | .resetDuring _ => true

/-- The status of a response word, `response[31:28]` (R67). -/
def statusOf (r : Word) : Nat := field r 31 28

/-- The payload of a response word, `response[27:0]` (R67). -/
def payloadOf (r : Word) : Nat := field r 27 0

/-- A status that reports a fault of the command itself, 1 to 4 (R68). -/
def reportsFault (r : Word) : Bool := decide (1 ≤ statusOf r) && decide (statusOf r ≤ 4)

/-- `(x', y')` is adjacent to `(x, y)` horizontally, vertically or diagonally (the glossary's Moore neighbourhood). -/
def adjacent (x y x' y' : Nat) : Bool :=
  decide (x' ≤ x + 1) && decide (x ≤ x' + 1) && decide (y' ≤ y + 1) && decide (y ≤ y' + 1) &&
    !(decide (x' = x) && decide (y' = y))

/-- Two grids hold the same state in every cell of the grid. -/
def sameCells (cfg : Config) (g g' : Memory) : Prop :=
  ∀ x y, x < cfg.W → y < cfg.H → cellAt g x y = cellAt g' x y

/-- How many of `n - 1`, `n`, `n + 1` lie in `[0, size)`: `cx` and `cy` of R95. -/
def axisCount (size n : Nat) : Nat :=
  ([-1, 0, 1] : List Int).countP (fun d => decide (0 ≤ (n : Int) + d) && decide ((n : Int) + d < size))

/-- The events of a host that sends these words and never resets. -/
def commandsOf (ws : List Word) : List HostEvent := ws.map .command

end Sys2Proof.Machine
end

