-- ==== Sys2Proof/Certificates/Slice0/Obligations.lean ====
section
/-! DEFINITION. The statements for the provers. Each is about every state and every configuration that meets its
premises; `coordKey x y` is the address of the cell `(x, y)` (log 4). -/

open Sys2Proof Sys2Proof.Machine

/-! ## Encoding -/

/-- R64: encoding and decoding are inverse on the commands whose operands fit, and a non-zero must-be-zero field makes a
word illegal. -/
def Obligations.EncodingIsOneToOne : Prop :=
  (∀ i : Instr, i.wf = true → decode (encode i) = .ok i) ∧
  (∀ (w : Word) (i : Instr), decode w = .ok i → i.wf = true ∧ encode i = w) ∧
  (∀ w : Word, (opField w = 2 ∨ opField w = 4) → sField w ≠ 0 → decode w = .error .nonzeroField) ∧
  (∀ w : Word, opField w = 5 → (sField w ≠ 0 ∨ yField w ≠ 0) → decode w = .error .nonzeroField) ∧
  (∀ w : Word, opField w = 3 → (sField w ≠ 0 ∨ yField w ≠ 0 ∨ xField w ≠ 0) → decode w = .error .nonzeroField)

/-- R63: a word has the form of a command exactly when its masked bits are the match bits, its operands are then its
fields, and no word has two forms. -/
def Obligations.FormIsMaskAndMatch : Prop :=
  ∀ w : Word,
    (w &&& 0xF0000000#32 = 0x10000000#32 ↔
      decode w = .ok (.wrcell (field w 9 0) (field w 19 10) (field w 27 20))) ∧
    (w &&& 0xFFF00000#32 = 0x20000000#32 ↔ decode w = .ok (.rdcell (field w 9 0) (field w 19 10))) ∧
    (w &&& 0xFFFFFFFF#32 = 0x30000000#32 ↔ decode w = .ok .step) ∧
    (w &&& 0xFFF00000#32 = 0x40000000#32 ↔ decode w = .ok (.nbrs (field w 9 0) (field w 19 10))) ∧
    (w &&& 0xFFFFFC00#32 = 0x50000000#32 ↔ decode w = .ok (.rdreg (field w 9 0))) ∧
    (∀ i j : Instr, w &&& i.maskBits = i.matchBits → w &&& j.maskBits = j.matchBits → i.matchBits = j.matchBits)

/-- A few words written out from R61 and R63 decode to the commands they stand for. -/
def Obligations.SampleWordsDecode : Prop :=
  decode 0x10200C01#32 = .ok (.wrcell 1 3 2) ∧ decode 0x1FFFFFFF#32 = .ok (.wrcell 1023 1023 255) ∧
  decode 0x20000401#32 = .ok (.rdcell 1 1) ∧ decode 0x30000000#32 = .ok .step ∧
  decode 0x40000C03#32 = .ok (.nbrs 3 3) ∧ decode 0x50000004#32 = .ok (.rdreg 4) ∧
  decode 0x00000000#32 = .error .reservedOpcode ∧ decode 0x20100009#32 = .error .nonzeroField

/-- The table of R70: the word of a command is the sum of its parts. -/
def Obligations.AssembledWordIsSumOfFields : Prop :=
  (∀ x y v, x ≤ 1023 → y ≤ 1023 → v ≤ 255 →
    (encode (.wrcell x y v)).toNat = 0x10000000 + v * 2 ^ 20 + y * 2 ^ 10 + x) ∧
  (∀ x y, x ≤ 1023 → y ≤ 1023 → (encode (.rdcell x y)).toNat = 0x20000000 + y * 2 ^ 10 + x) ∧
  (encode .step).toNat = 0x30000000 ∧
  (∀ x y, x ≤ 1023 → y ≤ 1023 → (encode (.nbrs x y)).toNat = 0x40000000 + y * 2 ^ 10 + x) ∧
  (∀ r, r ≤ 1023 → (encode (.rdreg r)).toNat = 0x50000000 + r)

/-- R65, R132: which words are illegal, and that an illegal word raises ILLEGAL_CMD and no other word does. -/
def Obligations.IllegalWordsRaiseIllegalCmd : Prop :=
  ∀ (s : State) (w : Word) (rest : List HostEvent), s.inbox = .command w :: rest → s.fault = false → s.cause = .none →
    let illegal := opField w = 0 ∨ 6 ≤ opField w ∨ ((opField w = 2 ∨ opField w = 4) ∧ sField w ≠ 0) ∨
      (opField w = 3 ∧ field w 27 0 ≠ 0) ∨ (opField w = 5 ∧ (sField w ≠ 0 ∨ yField w ≠ 0))
    (w = 0x00000000#32 ∨ w = 0xFFFFFFFF#32 → illegal) ∧
    (illegal → step s = .next { s with inbox := rest, fault := true, cause := .illegalCmd,
                                       responses := s.responses ++ [0x10000000#32] }) ∧
    (¬illegal → ∀ t, step s = .next t → t.cause ≠ .illegalCmd)

/-- R74, the procedure `decode` of the spec, is the model's form decoding followed by the operand checks of the
meanings (log 11). -/
def Obligations.VerdictIsFormThenOperandChecks : Prop :=
  ∀ (cfg : Config) (w : Word),
    (∀ r, decode w = .error r → verdict cfg w = .viol .illegalCmd) ∧
    (∀ x y v, decode w = .ok (.wrcell x y v) →
      verdict cfg w = if ¬(x < cfg.W ∧ y < cfg.H) then .viol .coordRange
        else if ¬ v < cfg.K then .viol .stateRange else .legal (.wrcell x y v)) ∧
    (∀ x y, decode w = .ok (.rdcell x y) →
      verdict cfg w = if ¬(x < cfg.W ∧ y < cfg.H) then .viol .coordRange else .legal (.rdcell x y)) ∧
    (decode w = .ok .step → verdict cfg w = .legal .step) ∧
    (∀ x y, decode w = .ok (.nbrs x y) →
      verdict cfg w = if ¬(x < cfg.W ∧ y < cfg.H) then .viol .coordRange else .legal (.nbrs x y)) ∧
    (∀ r, decode w = .ok (.rdreg r) → verdict cfg w = if r < 5 then .legal (.rdreg r) else .viol .regRange)

/-- A step runs the command that the host's next word decodes to, on the state from which that word has been taken. -/
def Obligations.StepRunsTheDecodedCommand : Prop :=
  (∀ (s : State) (w : Word) (rest : List HostEvent) (i : Instr), s.inbox = .command w :: rest → decode w = .ok i →
    i.wf = true ∧ step s = exec i { s with inbox := rest }) ∧
  (∀ (s : State) (i : Instr), i.wf = true → step (s.withFetchWord 32 (encode i).toNat) = exec i s)

/-! ## The commands that access the grid and the registers -/

/-- WRCELL, executed: the one cell of the front buffer holds the state, and nothing else has changed but the response
that was given (R120). -/
def Obligations.WrcellWritesOneCell : Prop :=
  ∀ (s : State) (x y v : Nat), s.fault = false → x < s.cfg.W → y < s.cfg.H → v < s.cfg.K →
    ∃ t, exec (.wrcell x y v) s = .next t ∧
      cellAt (t.buf s.sel) x y = v ∧
      (∀ a, a ≠ coordKey x y → Memory.read (t.buf s.sel) a = Memory.read (s.buf s.sel) a) ∧
      t.buf (!s.sel) = s.buf (!s.sel) ∧ t.sel = s.sel ∧ t.fault = s.fault ∧ t.cause = s.cause ∧ t.cfg = s.cfg ∧
      t.inbox = s.inbox ∧ t.responses = s.responses ++ [0x00000000#32]

/-- Two WRCELLs to different coordinates commute, two to the same coordinate leave what the later one alone leaves
(R120). -/
def Obligations.WritesCommuteAndTheLaterWins : Prop :=
  ∀ (s : State) (x y v x' y' v' : Nat), s.Inv → s.fault = false →
    x < s.cfg.W → y < s.cfg.H → v < s.cfg.K → x' < s.cfg.W → y' < s.cfg.H → v' < s.cfg.K →
    ((x, y) ≠ (x', y') → ∃ a b t, exec (.wrcell x y v) s = .next a ∧ exec (.wrcell x' y' v') a = .next t ∧
      exec (.wrcell x' y' v') s = .next b ∧ exec (.wrcell x y v) b = .next t) ∧
    (∃ a b t, exec (.wrcell x y v) s = .next a ∧ exec (.wrcell x y v') a = .next t ∧
      exec (.wrcell x y v') s = .next b ∧ t = { b with responses := b.responses ++ [0x00000000#32] })

/-- RDCELL, executed: the response is the cell of the front buffer, zero-extended, a state of the cycle, and nothing
else has changed (R121). -/
def Obligations.RdcellAnswersTheFrontCell : Prop :=
  ∀ (s : State) (x y : Nat), s.Inv → s.fault = false → x < s.cfg.W → y < s.cfg.H →
    cellAt s.front x y < s.cfg.K ∧
    exec (.rdcell x y) s =
      .next { s with responses := s.responses ++ [BitVec.ofNat 32 (cellAt s.front x y)] }

/-- Commands act in the order of arrival: an RDCELL after a WRCELL returns the written state at that coordinate, and the
old state everywhere else (R49). -/
def Obligations.ReadAfterWriteInOrder : Prop :=
  ∀ (s : State) (x y v x' y' : Nat), s.Inv → s.fault = false → x < s.cfg.W → y < s.cfg.H → v < s.cfg.K →
    x' < s.cfg.W → y' < s.cfg.H →
    s.inbox = [.command (encode (.wrcell x y v)), .command (encode (.rdcell x' y'))] →
    ∃ t, runSteps 2 s = .next t ∧ t.responses = s.responses ++ [0x00000000#32,
      BitVec.ofNat 32 (if x' = x ∧ y' = y then v else cellAt s.front x' y')]

/-- RDREG of a defined register, executed whether or not the engine is faulted: the response is its value, and nothing
else has changed (R122, R28). -/
def Obligations.RdregAnswersTheRegister : Prop :=
  ∀ s : State,
    exec (.rdreg 0) s = .next { s with responses := s.responses ++
      [BitVec.ofNat 32 (s.sel.toNat + 2 * s.fault.toNat + 4 * s.cause.code.toNat)] } ∧
    exec (.rdreg 1) s = .next { s with responses := s.responses ++ [BitVec.ofNat 32 s.cfg.W] } ∧
    exec (.rdreg 2) s = .next { s with responses := s.responses ++ [BitVec.ofNat 32 s.cfg.H] } ∧
    exec (.rdreg 3) s = .next { s with responses := s.responses ++ [BitVec.ofNat 32 s.cfg.K] } ∧
    exec (.rdreg 4) s = .next { s with responses := s.responses ++ [BitVec.ofNat 32 s.cfg.T] }

/-- R27: the fields of STATUS. -/
def Obligations.StatusRegisterFields : Prop :=
  ∀ s : State, ∃ r : Word, exec (.rdreg 0) s = .next { s with responses := s.responses ++ [r] } ∧
    field r 0 0 = s.sel.toNat ∧ field r 1 1 = s.fault.toNat ∧ field r 4 2 = s.cause.code.toNat ∧
    field r 4 2 ≤ 4 ∧ field r 27 5 = 0 ∧ statusOf r = 0

/-- R135, R29: a reserved register number raises REG_RANGE, and no value is returned. -/
def Obligations.ReservedRegisterRaisesRegRange : Prop :=
  ∀ (s : State) (r : Nat), s.fault = false → 5 ≤ r →
    exec (.rdreg r) s = .next { s with fault := true, cause := .regRange,
                                       responses := s.responses ++ [0x40000000#32] }

/-- R133: WRCELL, RDCELL and NBRS of a coordinate outside the grid raise COORD_RANGE, and no cell is read or written. -/
def Obligations.OutsideCoordinateRaisesCoordRange : Prop :=
  ∀ (s : State) (x y v : Nat), s.fault = false → (s.cfg.W ≤ x ∨ s.cfg.H ≤ y) →
    let t : State := { s with fault := true, cause := .coordRange, responses := s.responses ++ [0x20000000#32] }
    exec (.wrcell x y v) s = .next t ∧ exec (.rdcell x y) s = .next t ∧ exec (.nbrs x y) s = .next t

/-- R134: WRCELL of a state outside the cycle at a coordinate of the grid raises STATE_RANGE, and no cell is written. -/
def Obligations.OutsideStateRaisesStateRange : Prop :=
  ∀ (s : State) (x y v : Nat), s.fault = false → x < s.cfg.W → y < s.cfg.H → s.cfg.K ≤ v →
    exec (.wrcell x y v) s = .next { s with fault := true, cause := .stateRange,
                                            responses := s.responses ++ [0x30000000#32] }

/-! ## The locator -/

/-- NBRS, executed: bit i of the response says whether neighbour i lies in the grid, bits 11:8 hold how many do, the
other bits are 0, and nothing else has changed (R97). -/
def Obligations.NbrsAnswersMaskAndCount : Prop :=
  ∀ (s : State) (x y : Nat), s.fault = false → x < s.cfg.W → y < s.cfg.H →
    ∃ r : Word, exec (.nbrs x y) s = .next { s with responses := s.responses ++ [r] } ∧
      (∀ (i : Nat) (d : Int × Int), offsets[i]? = some d →
        (r.getLsbD i = true ↔ 0 ≤ x + d.1 ∧ x + d.1 < s.cfg.W ∧ 0 ≤ y + d.2 ∧ y + d.2 < s.cfg.H)) ∧
      (neighbors s.cfg x y).map List.length = some (field r 11 8) ∧ field r 31 12 = 0

/-- The table of R97: the response at each kind of position of a grid with at least three columns and rows. -/
def Obligations.NbrsMaskByPosition : Prop :=
  ∀ (s : State) (x y : Nat), s.fault = false → 3 ≤ s.cfg.W → 3 ≤ s.cfg.H → x < s.cfg.W → y < s.cfg.H →
    let left := x = 0
    let right := x = s.cfg.W - 1
    let top := y = 0
    let bottom := y = s.cfg.H - 1
    exec (.nbrs x y) s = .next { s with responses := s.responses ++ [
      if left then (if top then 0x3D0#32 else if bottom then 0x368#32 else 0x5F8#32)
      else if right then (if top then 0x316#32 else if bottom then 0x30B#32 else 0x51F#32)
      else if top then 0x5D6#32 else if bottom then 0x56B#32 else 0x8FF#32] }

/-- R95: how many neighbours a cell has, for every size of the grid. -/
def Obligations.NeighbourCountFormula : Prop :=
  ∀ (cfg : Config) (x y : Nat), x < cfg.W → y < cfg.H →
    nbrcount cfg x y = some (axisCount cfg.W x * axisCount cfg.H y - 1) ∧
    (2 ≤ cfg.W → axisCount cfg.W x = if x = 0 ∨ x = cfg.W - 1 then 2 else 3) ∧
    (2 ≤ cfg.H → axisCount cfg.H y = if y = 0 ∨ y = cfg.H - 1 then 2 else 3) ∧
    (cfg.W = 1 → axisCount cfg.W x = 1) ∧ (cfg.H = 1 → axisCount cfg.H y = 1) ∧
    (2 ≤ cfg.W → 2 ≤ cfg.H →
      nbrcount cfg x y = some (
        if (x = 0 ∨ x = cfg.W - 1) ∧ (y = 0 ∨ y = cfg.H - 1) then 3
        else if (x = 0 ∨ x = cfg.W - 1) ∨ (y = 0 ∨ y = cfg.H - 1) then 5 else 8)) ∧
    (cfg.W = 1 → 2 ≤ cfg.H → nbrcount cfg x y = some (if y = 0 ∨ y = cfg.H - 1 then 1 else 2)) ∧
    (cfg.H = 1 → 2 ≤ cfg.W → nbrcount cfg x y = some (if x = 0 ∨ x = cfg.W - 1 then 1 else 2)) ∧
    (cfg.W = 1 → cfg.H = 1 → nbrcount cfg x y = some 0)

/-- The neighbours are distinct, exactly the adjacent cells that lie in the grid, never the cell itself, and as many as
the count says: no wrap-around (R92, R93). -/
def Obligations.NeighboursAreTheAdjacentCells : Prop :=
  ∀ (cfg : Config) (x y : Nat), x < cfg.W → y < cfg.H →
    ∃ ns, neighbors cfg x y = some ns ∧ ns.Nodup ∧ nbrcount cfg x y = some ns.length ∧
      ∀ x' y', (x', y') ∈ ns ↔ x' < cfg.W ∧ y' < cfg.H ∧ adjacent x y x' y' = true

/-- The locator's contract has a value exactly for the coordinates of the grid (R96): the mask, the count, the set, each
validity and each neighbour. A neighbour it gives is again a coordinate of the grid. Of its two callers, STEP runs over
coordinates of the grid, and NBRS faults on any other. -/
def Obligations.LocatorHasNoValueOutsideTheGrid : Prop :=
  ∀ (cfg : Config) (x y : Nat),
    ((nbrmask cfg x y).isSome = true ↔ x < cfg.W ∧ y < cfg.H) ∧
    ((nbrcount cfg x y).isSome = true ↔ x < cfg.W ∧ y < cfg.H) ∧
    ((neighbors cfg x y).isSome = true ↔ x < cfg.W ∧ y < cfg.H) ∧
    ((nbrsPayload cfg x y).isSome = true ↔ x < cfg.W ∧ y < cfg.H) ∧
    (∀ d, (validOffset cfg x y d).isSome = true ↔ x < cfg.W ∧ y < cfg.H) ∧
    (∀ d c, neighbourAt cfg x y d = some c → x < cfg.W ∧ y < cfg.H ∧ c.1 < cfg.W ∧ c.2 < cfg.H) ∧
    (∀ c ∈ allCoords cfg, (nbrcount cfg c.1 c.2).isSome = true) ∧
    (∀ s : State, s.cfg = cfg → s.fault = false → nbrsPayload cfg x y = none →
      exec (.nbrs x y) s = .next { s with fault := true, cause := .coordRange,
                                          responses := s.responses ++ [0x20000000#32] })

/-! ## The cell accesses -/

/-- The two access primitives: within their requirements CellRead gives the cell, CellWrite sets it and changes no other cell
and nothing else, and outside them neither has a behaviour (R41). -/
def Obligations.CellAccessMeetsItsRequirements : Prop :=
  ∀ (s : State) (b : Bool) (x y v : Nat),
    (s.Inv → x < s.cfg.W → y < s.cfg.H → cellRead b x y s = some (cellAt (s.buf b) x y)) ∧
    (s.cfg.W ≤ x ∨ s.cfg.H ≤ y → cellRead b x y s = none) ∧
    (x < s.cfg.W → y < s.cfg.H → v < s.cfg.K →
      ∃ t, cellWrite b x y v s = some t ∧ cellRead b x y t = some v ∧
        (∀ c x' y', (c, x', y') ≠ (b, x, y) → cellRead c x' y' t = cellRead c x' y' s) ∧
        (∀ a, a ≠ coordKey x y → Memory.read (t.buf b) a = Memory.read (s.buf b) a) ∧ t.buf (!b) = s.buf (!b) ∧
        t.cfg = s.cfg ∧ t.sel = s.sel ∧ t.fault = s.fault ∧ t.cause = s.cause ∧ t.inbox = s.inbox ∧
        t.responses = s.responses) ∧
    (s.cfg.W ≤ x ∨ s.cfg.H ≤ y ∨ s.cfg.K ≤ v → cellWrite b x y v s = none)

/-- Where a live engine would read a stored state that is no state of the cycle, RDCELL and STEP stop, and no micro-step of
the STEP is possible: R144 gives no behaviour there (that the model stops is its choice, log 5). -/
def Obligations.StoredStateOutsideTheCycleHasNoBehaviour : Prop :=
  ∀ (s : State) (x y : Nat), s.fault = false → x < s.cfg.W → y < s.cfg.H → s.cfg.K ≤ cellAt s.front x y →
    exec (.rdcell x y) s = .fault .cellOutOfRange ∧ exec .step s = .fault .cellOutOfRange ∧
    ∀ (groups : List (List (Nat × Nat))) (p : StepProgress),
      scheduleStep groups s = some p → groups = [] ∧ swapMicro p = none

/-- A configuration is built exactly when it is in the ranges of R5, R6 and R7, with the values asked for. -/
def Obligations.ConfigurationsOutsideTheRangesAreRefused : Prop :=
  ∀ W H K T : Nat,
    (∀ cfg, Config.build W H K T = some cfg → cfg.W = W ∧ cfg.H = H ∧ cfg.K = K ∧ cfg.T = T) ∧
    ((Config.build W H K T).isSome = true ↔ 1 ≤ W ∧ W ≤ 1024 ∧ 1 ≤ H ∧ H ≤ 1024 ∧ 1 ≤ K ∧ K ≤ 256 ∧ T ≤ 15)

/-! ## The stepper -/

/-- R100: the successor is the sum modulo K, a bijection of `[0, K)`. -/
def Obligations.SuccessorIsModularBijection : Prop :=
  ∀ cfg : Config,
    (∀ c, c < cfg.K → succState cfg c = (c + 1) % cfg.K ∧ succState cfg c < cfg.K) ∧
    (∀ c d, c < cfg.K → d < cfg.K → succState cfg c = succState cfg d → c = d) ∧
    (∀ d, d < cfg.K → ∃ c, c < cfg.K ∧ succState cfg c = d) ∧
    (cfg.K = 3 → succState cfg 0 = 1 ∧ succState cfg 1 = 2 ∧ succState cfg 2 = 0) ∧
    (cfg.K = 1 → succState cfg 0 = 0)

/-- R101: the count is the number of distinct cells of the grid that are adjacent and hold the successor state; it is at
most the number of neighbours, and at most 8. -/
def Obligations.CountIsSetCardinality : Prop :=
  ∀ (cfg : Config) (g : Memory) (x y : Nat), Memory.within cfg g → x < cfg.W → y < cfg.H →
    qualifying cfg g x y = ((allCoords cfg).filter (fun c => adjacent x y c.1 c.2 &&
      decide (cellAt g c.1 c.2 = (cellAt g x y + 1) % cfg.K))).length ∧
    ∃ n, nbrcount cfg x y = some n ∧ qualifying cfg g x y ≤ n ∧ n ≤ 8

/-- R103 with R102: a cell becomes its successor when its count exceeds T, and otherwise stays; its next state is decided
by the cell and its neighbours alone. -/
def Obligations.NextStateIsThresholdedAndLocal : Prop :=
  ∀ (cfg : Config) (g : Memory) (x y : Nat), x < cfg.W → y < cfg.H →
    (cfg.T < qualifying cfg g x y → cellnext cfg g x y = succState cfg (cellAt g x y)) ∧
    (qualifying cfg g x y ≤ cfg.T → cellnext cfg g x y = cellAt g x y) ∧
    (∀ g' : Memory, cellAt g' x y = cellAt g x y →
      (∀ x' y', x' < cfg.W → y' < cfg.H → adjacent x y x' y' = true → cellAt g' x' y' = cellAt g x' y') →
      cellnext cfg g' x y = cellnext cfg g x y)

/-- R110: every cell of the next grid is in `[0, K)`; it is the old state or its successor, and both are in `[0, K)`. -/
def Obligations.StepKeepsTheRange : Prop :=
  ∀ (cfg : Config) (g : Memory), Memory.within cfg g → ∀ x y, x < cfg.W → y < cfg.H →
    cellAt (stepGrid cfg g) x y < cfg.K ∧
    (cellAt (stepGrid cfg g) x y = cellAt g x y ∨ cellAt (stepGrid cfg g) x y = succState cfg (cellAt g x y)) ∧
    cellAt g x y < cfg.K ∧ succState cfg (cellAt g x y) < cfg.K

/-- STEP, executed: every cell of the old back buffer becomes the next state of that cell of the front buffer, the front
buffer is not modified, SEL toggles, and nothing else has changed but the response (R105, R104). -/
def Obligations.StepComputesTheNextGeneration : Prop :=
  ∀ s : State, s.Inv → s.fault = false →
    ∃ t, exec .step s = .next t ∧
      (∀ x y, x < s.cfg.W → y < s.cfg.H → cellAt (t.buf (!s.sel)) x y = cellnext s.cfg (s.buf s.sel) x y) ∧
      (∀ a, (∀ x y, x < s.cfg.W → y < s.cfg.H → a ≠ coordKey x y) →
        Memory.read (t.buf (!s.sel)) a = Memory.read (s.buf (!s.sel)) a) ∧
      t.buf s.sel = s.buf s.sel ∧ t.sel = !s.sel ∧ t.fault = s.fault ∧ t.cause = s.cause ∧ t.cfg = s.cfg ∧
      t.inbox = s.inbox ∧ t.responses = s.responses ++ [0x00000000#32]

/-- R111: a cell whose neighbours all hold its own state keeps its state, as does a cell that no neighbour qualifies for;
for `K ≥ 2` a neighbour that holds the cell's own state never qualifies. -/
def Obligations.StableUnderNoMajority : Prop :=
  ∀ (cfg : Config) (g : Memory) (x y : Nat), Memory.within cfg g → x < cfg.W → y < cfg.H →
    (2 ≤ cfg.K → succState cfg (cellAt g x y) ≠ cellAt g x y ∧
      ∀ d ∈ offsets, ∀ c, neighbourAt cfg x y d = some c → cellAt g c.1 c.2 = cellAt g x y →
        hit cfg g x y d = false) ∧
    (qualifying cfg g x y = 0 → cellnext cfg g x y = cellAt g x y) ∧
    ((∀ x' y', x' < cfg.W → y' < cfg.H → adjacent x y x' y' = true → cellAt g x' y' = cellAt g x y) →
      cellnext cfg g x y = cellAt g x y ∧ (2 ≤ cfg.K → qualifying cfg g x y = 0) ∧
      (cfg.K = 1 → nbrcount cfg x y = some (qualifying cfg g x y)))

/-- Corner cases of STEP (R102, R105): with `T ≥ 8`, on a 1×1 grid and with K = 1 the front grid after the STEP is the one
before it, and SEL toggles all the same. -/
def Obligations.StepThatChangesNoCellStillToggles : Prop :=
  ∀ s : State, s.Inv → s.fault = false → (8 ≤ s.cfg.T ∨ (s.cfg.W = 1 ∧ s.cfg.H = 1) ∨ s.cfg.K = 1) →
    ∃ t, exec .step s = .next t ∧ t.front = s.front ∧ t.back = s.front ∧ t.sel = !s.sel

/-- R112: the front buffer after a STEP is a function of the front buffer before it and of the configuration. It does not
depend on SEL, on the back buffer, on what came before, or on the schedule of the cell updates. -/
def Obligations.StepIsDeterminedByTheFrontGrid : Prop :=
  ∀ s s' : State, s.Inv → s'.Inv → s.fault = false → s'.fault = false → s.cfg = s'.cfg →
    sameCells s.cfg s.front s'.front →
    ∃ t t', exec .step s = .next t ∧ exec .step s' = .next t' ∧ t.front = t'.front ∧
      ∀ (groups : List (List (Nat × Nat))) (p : StepProgress) (u : State),
        scheduleStep groups s' = some p → swapMicro p = some u → u.front = t.front

/-- R125: n STEPs with nothing between them apply the step function n times and toggle SEL n times. -/
def Obligations.RepeatedStepsIterateTheStepFunction : Prop :=
  ∀ (n : Nat) (s : State), s.Inv → s.fault = false → s.inbox = commandsOf ((runCommands n).map encode) →
    ∃ t, runSteps n s = .next t ∧ t.front = (stepGrid s.cfg)^[n] s.front ∧
      t.sel = (if n % 2 = 0 then s.sel else !s.sel) ∧
      t.responses = s.responses ++ List.replicate n 0x00000000#32

/-! ## The micro-step view of STEP -/

/-- R107: every schedule of the micro-steps, one cell or any group of cells at a time, ends in the state that the atomic
STEP gives, and every order of the cells is a schedule. -/
def Obligations.EveryScheduleEndsInTheAtomicStep : Prop :=
  (∀ (s : State) (groups : List (List (Nat × Nat))) (p : StepProgress), s.Inv → s.fault = false →
    scheduleStep groups s = some p → p.pending = [] →
    ∃ t, swapMicro p = some t ∧ exec .step s = .next t) ∧
  (∀ (s : State) (order : List (Nat × Nat)), s.Inv → s.fault = false → order.Perm (allCoords s.cfg) →
    ∃ p, scheduleStep (order.map (fun c => [c])) s = some p ∧ p.pending = [])

/-- R106 gives the acceptance of a STEP for `FAULT = 0` only: then each cell of the grid is pending once. A faulted engine
refuses the STEP (R138): no progress, no micro-step, and the state is as it was but for the response. -/
def Obligations.OnlyALiveEngineAcceptsAStep : Prop :=
  ∀ s : State,
    (s.fault = false → ∃ p, acceptStep s = some p ∧ p.arch = s ∧ p.pending.Nodup ∧
      p.pending.length = s.cfg.W * s.cfg.H ∧ ∀ x y, (x, y) ∈ p.pending ↔ x < s.cfg.W ∧ y < s.cfg.H) ∧
    (s.fault = true → (∀ groups, scheduleStep groups s = none) ∧
      (∀ pending group, cellUpdates group ⟨s, pending⟩ = none ∧ swapMicro ⟨s, pending⟩ = none) ∧
      exec .step s = .next { s with responses := s.responses ++ [0x70000000#32] })

/-- While a STEP is in progress the front buffer and SEL are as they were, each cell is written once, the swap waits for
the last write, and as long as a cell is pending its update may be made, so a STEP ends after W·H of them (R106, R164,
R171). -/
def Obligations.StepInProgressKeepsTheSnapshotAndEnds : Prop :=
  ∀ (s : State) (groups : List (List (Nat × Nat))) (p : StepProgress),
    scheduleStep groups s = some p →
    p.arch.buf s.sel = s.buf s.sel ∧ p.arch.sel = s.sel ∧ p.arch.fault = s.fault ∧ p.arch.cause = s.cause ∧
    p.arch.cfg = s.cfg ∧ p.arch.inbox = s.inbox ∧ p.arch.responses = s.responses ∧
    p.pending.length + groups.flatten.length = s.cfg.W * s.cfg.H ∧ groups.flatten.Nodup ∧
    (s.Inv →
      (∀ x y, (x, y) ∈ p.pending → ∃ q, cellUpdate x y p = some q ∧ q.pending.length + 1 = p.pending.length) ∧
      ((swapMicro p).isSome = true ↔ groups.flatten.length = s.cfg.W * s.cfg.H))

/-! ## Faults -/

/-- R137: a live engine raises exactly the violation that R74 finds in the word. Fault entry sets FAULT and CAUSE and
answers with the cause, and nothing else changes. -/
def Obligations.FaultEntryIsPrecise : Prop :=
  ∀ (s : State) (w : Word) (rest : List HostEvent), s.inbox = .command w :: rest → s.fault = false →
    (∀ c, verdict s.cfg w = .viol c → c ≠ .none ∧
      step s = .next { s with inbox := rest, fault := true, cause := c,
                              responses := s.responses ++ [BitVec.ofNat 32 (c.code.toNat * 2 ^ 28)] }) ∧
    (∀ t, step s = .next t → t.fault = true → ∃ c, verdict s.cfg w = .viol c)

/-- R141: a word that R74 finds legal raises no fault and always completes. -/
def Obligations.LegalCommandsNeverFault : Prop :=
  ∀ (s : State) (w : Word) (rest : List HostEvent) (i : Instr), s.Inv → s.inbox = .command w :: rest →
    s.fault = false → verdict s.cfg w = .legal i →
    ∃ t, step s = .next t ∧ exec i { s with inbox := rest } = .next t ∧ t.fault = false ∧ t.cause = .none

/-- R138: a faulted engine executes a legal RDREG, and refuses every other word with status FAULTED and no state
change. -/
def Obligations.FaultedEngineOnlyReadsRegisters : Prop :=
  ∀ (s : State) (w : Word) (rest : List HostEvent), s.inbox = .command w :: rest → s.fault = true →
    (∀ r, verdict s.cfg w = .legal (.rdreg r) →
      ∃ p, readRegister r s = some p ∧
        step s = .next { s with inbox := rest, responses := s.responses ++ [BitVec.ofNat 32 p.toNat] }) ∧
    ((∀ r, verdict s.cfg w ≠ .legal (.rdreg r)) →
      step s = .next { s with inbox := rest, responses := s.responses ++ [0x70000000#32] })

/-- R139: without a reset the faulted state is not left: over any number of commands, legal or not, FAULT, CAUSE, SEL and
both buffers stay as they were, and every word is answered with status 0 or 7. -/
def Obligations.OnlyResetLeavesTheFaultedState : Prop :=
  ∀ (n : Nat) (s : State) (ws : List Word), s.fault = true → s.inbox = commandsOf ws →
    ∃ (t : State) (new : List Word), runSteps n s = .next t ∧ t.fault = true ∧ t.cause = s.cause ∧ t.sel = s.sel ∧
      t.buf0 = s.buf0 ∧ t.buf1 = s.buf1 ∧ t.responses = s.responses ++ new ∧
      new.length = min n ws.length ∧ ∀ r ∈ new, statusOf r = 0 ∨ r = 0x70000000#32

/-- R68: between two resets a status 1 to 4 is sent at most once, and never after the engine has faulted. -/
def Obligations.AtMostOneFaultStatusBetweenResets : Prop :=
  ∀ (n : Nat) (s t : State) (ws : List Word), s.inbox = commandsOf ws → runSteps n s = .next t →
    ∃ new : List Word, t.responses = s.responses ++ new ∧ new.countP reportsFault ≤ 1 ∧
      (s.fault = true → new.countP reportsFault = 0) ∧
      (s.fault = false → (new.countP reportsFault = 1 ↔ t.fault = true))

/-- Every accepted command gets exactly one response, with a status of R68, a payload of 0 unless the status is OK, and
one to four exactly when this command set CAUSE (R67, R68, R73). -/
def Obligations.OneResponsePerCommand : Prop :=
  ∀ (s t : State) (w : Word) (rest : List HostEvent), s.inbox = .command w :: rest → step s = .next t →
    t.inbox = rest ∧ ∃ r : Word, t.responses = s.responses ++ [r] ∧
      (statusOf r ≤ 4 ∨ statusOf r = 7) ∧ (statusOf r ≠ 0 → payloadOf r = 0) ∧
      (reportsFault r = true ↔ s.fault = false ∧ t.fault = true) ∧
      (reportsFault r = true → statusOf r = t.cause.code.toNat) ∧ (statusOf r = 7 → s.fault = true ∧ t.fault = true)

/-! ## The whole machine -/

/-- R22: every cell of both buffers is a state of the cycle, after reset and after every step (with the rest of the
invariant: the canonical form, the dimensions, and CAUSE being 0 exactly while FAULT is 0). -/
def Obligations.RangeInvariantIsKept : Prop :=
  (∀ cfg : Config, (State.resetOf cfg).Inv) ∧
  (∀ s t : State, s.Inv → step s = .next t → t.Inv) ∧
  (∀ s : State, s.Inv → ∀ b x y, x < s.cfg.W → y < s.cfg.H →
    cellRead b x y s = some (cellAt (s.buf b) x y) ∧ cellAt (s.buf b) x y < s.cfg.K)

/-- The invariant holds at the state after reset. -/
def Obligations.ResetStateHasTheInvariant : Prop := State.reset.Inv

/-- No stop is reached: from every state with the invariant, whatever the host sends and whenever it resets, every number
of steps completes (R130: every word has a defined outcome, R108). -/
def Obligations.MachineNeverStops : Prop :=
  ∀ (n : Nat) (s : State), s.Inv → ∃ t, runSteps n s = .next t ∧ t.Inv

/-- R49: a sequence of commands is the left fold of the single-command function over it. -/
def Obligations.SequenceIsTheLeftFold : Prop :=
  ∀ (ws : List Word) (s : State), s.Inv → s.inbox = commandsOf ws →
    runSteps ws.length s = ws.foldl thenWord (.next { s with inbox := [] })

/-- SEL changes only when a STEP is executed by a live engine, and at reset (R23). -/
def Obligations.SelChangesOnlyByStepOrReset : Prop :=
  ∀ s t : State, step s = .next t → t.sel ≠ s.sel →
    (∃ rest, s.inbox = .command 0x30000000#32 :: rest ∧ s.fault = false ∧ t.sel = !s.sel) ∨
    (∃ e rest, s.inbox = e :: rest ∧ e.isReset = true ∧ t.sel = false)

/-- The table of R42: a command changes a cell only if it is a legal WRCELL, and then that cell of the front buffer, or a
STEP, and then a cell of the back buffer. -/
def Obligations.CellsChangeOnlyByWrcellOrStep : Prop :=
  ∀ (s t : State) (w : Word) (rest : List HostEvent) (b : Bool) (a : Nat),
    s.inbox = .command w :: rest → step s = .next t → Memory.read (t.buf b) a ≠ Memory.read (s.buf b) a →
    s.fault = false ∧
      ((b = s.sel ∧ ∃ x y v, verdict s.cfg w = .legal (.wrcell x y v) ∧ a = coordKey x y) ∨
        (b = (!s.sel) ∧ w = 0x30000000#32))

/-- The parameters are constant: no step, reset included, changes W, H, K or T (R5, R6, R28, R33). -/
def Obligations.ConfigurationNeverChanges : Prop :=
  ∀ (n : Nat) (s t : State), runSteps n s = .next t → t.cfg = s.cfg

/-- R30: the contents of the back buffer influence no response. Two states that differ only there answer every sequence of
commands and resets with the same responses, and show the same front grid, SEL, FAULT and CAUSE. -/
def Obligations.BackBufferInfluencesNoResponse : Prop :=
  ∀ (n : Nat) (s : State) (m : Memory), s.Inv →
    ∃ t t', runSteps n s = .next t ∧ runSteps n (s.setBuf (!s.sel) m) = .next t' ∧
      t.responses = t'.responses ∧ t.front = t'.front ∧ t.sel = t'.sel ∧ t.fault = t'.fault ∧ t.cause = t'.cause

/-- R32: what reset leaves: SEL, FAULT and CAUSE are 0, every cell of both buffers is 0, STATUS reads 0 and the
configuration registers read as always. -/
def Obligations.ResetLeavesTheResetState : Prop :=
  ∀ (s : State) (rest : List HostEvent), s.inbox = .reset :: rest →
    ∃ t, step s = .next t ∧ t.sel = false ∧ t.fault = false ∧ t.cause = .none ∧
      (∀ b a, Memory.read (t.buf b) a = 0#8) ∧ (∀ b x y, x < t.cfg.W → y < t.cfg.H → cellRead b x y t = some 0) ∧
      t.cfg = s.cfg ∧ t.inbox = rest ∧ t.responses = s.responses ∧
      t = { State.resetOf s.cfg with inbox := rest, responses := s.responses } ∧
      readRegister 0 t = some 0#28 ∧ readRegister 1 t = some (BitVec.ofNat 28 s.cfg.W) ∧
      readRegister 2 t = some (BitVec.ofNat 28 s.cfg.H) ∧ readRegister 3 t = some (BitVec.ofNat 28 s.cfg.K) ∧
      readRegister 4 t = some (BitVec.ofNat 28 s.cfg.T)

/-- R161: a command during which reset is asserted is abandoned: its response is never delivered and the state is the reset
state, also in the middle of a STEP, whatever cells it has written. -/
def Obligations.ResetAbandonsTheCommandInFlight : Prop :=
  (∀ (s : State) (w : Word) (rest : List HostEvent), s.inbox = .resetDuring w :: rest →
    step s = .next { State.resetOf s.cfg with inbox := rest, responses := s.responses }) ∧
  (∀ (s : State) (groups : List (List (Nat × Nat))) (p : StepProgress),
    scheduleStep groups s = some p →
    abandonStep p = { State.resetOf s.cfg with inbox := s.inbox, responses := s.responses })

/-- With nothing to do the engine is idle and keeps all its state (R143; that an idle step answers the same state is the
model's choice, log 8). -/
def Obligations.IdleEngineKeepsItsState : Prop := ∀ s : State, s.inbox = [] → step s = .next s

/-! ## The driver's procedures -/

/-- R123: the SEED of a grid whose states are in `[0, K)` makes that grid the current generation, on any engine that is
not faulted. -/
def Obligations.SeedEstablishesTheGrid : Prop :=
  ∀ (s : State) (g : Nat → Nat → Nat), s.Inv → s.fault = false →
    (∀ x y, x < s.cfg.W → y < s.cfg.H → g x y < s.cfg.K) →
    s.inbox = commandsOf ((seedCommands s.cfg g).map encode) →
    ∃ t, runSteps (s.cfg.W * s.cfg.H) s = .next t ∧ t.fault = false ∧ t.sel = s.sel ∧ t.back = s.back ∧
      (∀ x y, x < s.cfg.W → y < s.cfg.H → cellAt t.front x y = g x y) ∧
      t.responses = s.responses ++ List.replicate (s.cfg.W * s.cfg.H) 0x00000000#32

/-- R124: a DUMP reads every cell of one generation, in its order, and changes nothing. -/
def Obligations.DumpReadsOneGeneration : Prop :=
  ∀ s : State, s.Inv → s.fault = false → s.inbox = commandsOf ((dumpCommands s.cfg).map encode) →
    ∃ t, runSteps (s.cfg.W * s.cfg.H) s = .next t ∧
      t = { s with inbox := [], responses := t.responses } ∧
      t.responses = s.responses ++ (allCoords s.cfg).map (fun c => BitVec.ofNat 32 (cellAt s.front c.1 c.2))
end

