-- ==== Sys2Proof/Laws/Encoding.lean ====
section
/-! SUPPORT. The fields of a word, and of a packed word. -/

namespace Sys2Proof

theorem fitsTen_iff {n : Nat} : fitsTen n = true ↔ n < 1024 := by
  simp only [fitsTen, decide_eq_true_eq]
  omega

theorem fitsEight_iff {n : Nat} : fitsEight n = true ↔ n < 256 := by
  simp only [fitsEight, decide_eq_true_eq]
  omega

theorem opField_lt (w : Word) : opField w < 16 := by
  unfold opField field
  omega

theorem sField_lt (w : Word) : sField w < 256 := by
  unfold sField field
  omega

theorem yField_lt (w : Word) : yField w < 1024 := by
  unfold yField field
  omega

theorem xField_lt (w : Word) : xField w < 1024 := by
  unfold xField field
  omega

/-- A word is the sum of its four fields (R61). -/
theorem toNat_eq_fields (w : Word) :
    w.toNat = opField w * 2 ^ 28 + sField w * 2 ^ 20 + yField w * 2 ^ 10 + xField w := by
  have := w.isLt
  unfold opField sField yField xField field
  omega

/-- The number of a packed word whose parts fit their fields. -/
theorem toNat_pack {op s y x : Nat} (ho : op < 16) (hs : s < 256) (hy : y < 1024) (hx : x < 1024) :
    (pack op s y x).toNat = op * 2 ^ 28 + s * 2 ^ 20 + y * 2 ^ 10 + x := by
  unfold pack
  rw [BitVec.toNat_ofNat]
  omega

theorem opField_pack {op s y x : Nat} (ho : op < 16) (hs : s < 256) (hy : y < 1024) (hx : x < 1024) :
    opField (pack op s y x) = op := by
  unfold opField field
  rw [toNat_pack ho hs hy hx]
  omega

theorem sField_pack {op s y x : Nat} (ho : op < 16) (hs : s < 256) (hy : y < 1024) (hx : x < 1024) :
    sField (pack op s y x) = s := by
  unfold sField field
  rw [toNat_pack ho hs hy hx]
  omega

theorem yField_pack {op s y x : Nat} (ho : op < 16) (hs : s < 256) (hy : y < 1024) (hx : x < 1024) :
    yField (pack op s y x) = y := by
  unfold yField field
  rw [toNat_pack ho hs hy hx]
  omega

theorem xField_pack {op s y x : Nat} (ho : op < 16) (hs : s < 256) (hy : y < 1024) (hx : x < 1024) :
    xField (pack op s y x) = x := by
  unfold xField field
  rw [toNat_pack ho hs hy hx]
  omega

/-- A word packed from its own fields is itself. -/
theorem pack_fields (w : Word) : pack (opField w) (sField w) (yField w) (xField w) = w := by
  apply BitVec.eq_of_toNat_eq
  rw [toNat_pack (opField_lt w) (sField_lt w) (yField_lt w) (xField_lt w), ← toNat_eq_fields]

end Sys2Proof
end

