-- ==== Sys2Proof/Laws/Locator.lean ====
section
/-! SUPPORT. What the locator gives, and that it gives nothing outside its precondition. -/

namespace Sys2Proof.Machine

theorem inGrid_iff {cfg : Config} {x y : Nat} : inGrid cfg x y = true ↔ x < cfg.W ∧ y < cfg.H := by
  simp [inGrid]

/-- Everything the contract's guard can do (R96). -/
theorem located_eq_some {α : Type} {cfg : Config} {x y : Nat} {value result : α} :
    located cfg x y value = some result ↔ (x < cfg.W ∧ y < cfg.H) ∧ result = value := by
  unfold located
  split
  next h => simp [inGrid_iff.1 h, eq_comm]
  next h => rw [inGrid_iff] at h; simp [h]

theorem located_eq_none {α : Type} {cfg : Config} {x y : Nat} {value : α} :
    located cfg x y value = none ↔ ¬(x < cfg.W ∧ y < cfg.H) := by
  unfold located
  split
  next h => simp [inGrid_iff.1 h]
  next h => rw [inGrid_iff] at h; simp [h]

/-- Everything the neighbour at an offset can be (R92, R93). -/
theorem neighbourAt_eq_some {cfg : Config} {x y : Nat} {d : Int × Int} {c : Nat × Nat} :
    neighbourAt cfg x y d = some c ↔ (x < cfg.W ∧ y < cfg.H) ∧ inb cfg (x + d.1) (y + d.2) = true ∧
      (c.1 : Int) = x + d.1 ∧ (c.2 : Int) = y + d.2 := by
  obtain ⟨x', y'⟩ := c
  have hinb : inb cfg (x + d.1) (y + d.2) = true → 0 ≤ (x : Int) + d.1 ∧ 0 ≤ (y : Int) + d.2 := by
    simp only [inb, Bool.and_eq_true, decide_eq_true_eq]
    omega
  unfold neighbourAt
  split
  next h =>
    obtain ⟨hgrid, hv⟩ := located_eq_some.1 h
    have := hinb hv.symm
    simp only [Option.some.injEq, Prod.mk.injEq, hgrid, hv.symm, true_and, and_self]
    omega
  next h =>
    obtain ⟨-, hv⟩ := located_eq_some.1 h
    simp [hv.symm]
  next h =>
    simp [located_eq_none.1 h]

/-- A neighbour lies in the grid (R92). -/
theorem neighbourAt_in_grid {cfg : Config} {x y : Nat} {d : Int × Int} {c : Nat × Nat}
    (h : neighbourAt cfg x y d = some c) : c.1 < cfg.W ∧ c.2 < cfg.H := by
  obtain ⟨-, hinb, h1, h2⟩ := neighbourAt_eq_some.1 h
  simp only [inb, Bool.and_eq_true, decide_eq_true_eq] at hinb
  omega

/-- For a coordinate of the grid, a neighbour exists exactly when the bounds predicate says so (R92). -/
theorem neighbourAt_isSome {cfg : Config} {x y : Nat} (hx : x < cfg.W) (hy : y < cfg.H) (d : Int × Int) :
    (neighbourAt cfg x y d).isSome = inb cfg (x + d.1) (y + d.2) := by
  have hv : validOffset cfg x y d = some (inb cfg (x + d.1) (y + d.2)) := located_eq_some.2 ⟨⟨hx, hy⟩, rfl⟩
  unfold neighbourAt
  rw [hv]
  cases inb cfg (x + d.1) (y + d.2) <;> rfl

/-- A cell of the grid has at most eight neighbours (R95). -/
theorem nbrcount_le_eight {cfg : Config} {x y n : Nat} (h : nbrcount cfg x y = some n) : n ≤ 8 := by
  obtain ⟨-, rfl⟩ := located_eq_some.1 h
  exact List.countP_le_length

/-- The payload of NBRS exists for a coordinate of the grid (R97), and is made of the count and the mask. -/
theorem nbrsPayload_of_grid {cfg : Config} {x y : Nat} (hx : x < cfg.W) (hy : y < cfg.H) :
    nbrsPayload cfg x y = some
      ((BitVec.ofNat 4 (offsets.countP (fun d => (neighbourAt cfg x y d).isSome)) ++
        BitVec.ofNat 8 (bitsToNat (offsets.map (fun d => (neighbourAt cfg x y d).isSome)))).zeroExtend 28) := by
  have hgrid : x < cfg.W ∧ y < cfg.H := ⟨hx, hy⟩
  unfold nbrsPayload nbrcount nbrmask
  rw [located_eq_some.2 ⟨hgrid, rfl⟩, located_eq_some.2 ⟨hgrid, rfl⟩]

end Sys2Proof.Machine
end

