-- ==== Sys2Proof/Laws/Masks.lean ====
section
/-! SUPPORT. The masks of the opcode map (R63) keep the high bits of a word. -/

namespace Sys2Proof

/-- Keeping the bits from `k` up. -/
theorem and_highMask (w : Word) (k : Nat) : w &&& (BitVec.allOnes 32 <<< k) = (w >>> k) <<< k := by
  ext i hi
  simp only [BitVec.getElem_and, BitVec.getElem_shiftLeft, BitVec.getElem_allOnes]
  by_cases h : i < k
  · simp [h]
  · have hk : k + (i - k) = i := by omega
    simp [h, hk, BitVec.getLsbD_eq_getElem hi]

theorem toNat_highMask (w : Word) (k : Nat) :
    (w &&& (BitVec.allOnes 32 <<< k)).toNat = w.toNat / 2 ^ k * 2 ^ k := by
  have hw := w.isLt
  rw [and_highMask, BitVec.toNat_shiftLeft, BitVec.toNat_ushiftRight, Nat.shiftRight_eq_div_pow,
    Nat.shiftLeft_eq]
  refine Nat.mod_eq_of_lt (Nat.lt_of_le_of_lt (Nat.div_mul_le_self _ _) ?_)
  exact Nat.lt_of_lt_of_le hw (Nat.pow_le_pow_right (by decide) (by omega))

/-- A masked comparison of R63 as a comparison of numbers. -/
theorem masked_eq_iff (w : Word) {mask pat : Word} {k : Nat} (hm : mask = BitVec.allOnes 32 <<< k) :
    w &&& mask = pat ↔ w.toNat / 2 ^ k * 2 ^ k = pat.toNat := by
  subst hm
  rw [← toNat_highMask w k]
  exact ⟨fun h => by rw [h], fun h => BitVec.eq_of_toNat_eq h⟩

end Sys2Proof
end

