-- ==== Sys2Proof/Laws/Memory.lean ====
section
/-! SUPPORT. What reading and writing a grid buffer do, and that every operation keeps the canonical form. -/

namespace Sys2Proof.Machine

@[simp] theorem read_nil (a : Nat) : Memory.read [] a = unlisted := rfl

theorem read_cons (c : Host.Cell) (m : Memory) (a : Nat) :
    Memory.read (c :: m) a = if c.1 = a then c.2 else Memory.read m a := rfl

/-- A key that no entry lists reads as an unlisted cell. -/
theorem read_of_not_listed {m : Memory} {a : Nat} (h : ∀ c ∈ m, c.1 ≠ a) : Memory.read m a = unlisted := by
  induction m with
  | nil => rfl
  | cons c m ih =>
    rw [read_cons, if_neg (h c (by simp)), ih (fun d hd => h d (by simp [hd]))]

/-- A key that reads as something else than an unlisted cell is listed with what it reads as. -/
theorem mem_of_read_ne {m : Memory} {a : Nat} (h : Memory.read m a ≠ unlisted) : (a, Memory.read m a) ∈ m := by
  induction m with
  | nil => exact absurd rfl h
  | cons c m ih =>
    rw [read_cons] at h ⊢
    by_cases hc : c.1 = a
    · subst hc
      simp
    · rw [if_neg hc] at h ⊢
      exact List.mem_cons_of_mem _ (ih h)

/-- In a canonical memory an entry reads as its byte. -/
theorem read_of_mem {m : Memory} (hp : m.Pairwise (fun c d => c.1 < d.1)) {c : Host.Cell} (hc : c ∈ m) :
    Memory.read m c.1 = c.2 := by
  induction m with
  | nil => cases hc
  | cons d m ih =>
    rw [List.pairwise_cons] at hp
    rw [read_cons]
    rcases List.mem_cons.1 hc with rfl | hm
    · simp
    · rw [if_neg (Nat.ne_of_lt (hp.1 c hm)), ih hp.2 hm]

/-- Dropping the entries of one key changes what that key reads as, and nothing else. -/
theorem read_filter (m : Memory) (k a : Nat) :
    Memory.read (m.filter (fun c => decide (c.1 ≠ k))) a = if a = k then unlisted else Memory.read m a := by
  induction m with
  | nil => simp
  | cons c m ih =>
    by_cases hc : c.1 = k
    · rw [List.filter_cons_of_neg (by simp [hc]), ih, read_cons]
      by_cases ha : a = k
      · simp [ha]
      · rw [if_neg ha, if_neg ha, if_neg (by omega)]
    · rw [List.filter_cons_of_pos (by simp [hc]), read_cons, ih, read_cons]
      by_cases ha : a = k
      · rw [if_neg (by omega), if_pos ha, if_pos ha]
      · rw [if_neg ha, if_neg ha]

/-- Inserting an entry under a key that is not listed. -/
theorem read_insert {m : Memory} {k : Nat} (hk : ∀ c ∈ m, c.1 ≠ k) (v : CellByte) (a : Nat) :
    Memory.read (Memory.insert k v m) a = if a = k then v else Memory.read m a := by
  induction m with
  | nil => simp only [Memory.insert, read_cons, read_nil, eq_comm]
  | cons c m ih =>
    have hc : c.1 ≠ k := hk c (by simp)
    simp only [Memory.insert]
    split
    · simp only [read_cons, eq_comm]
    · rw [read_cons, ih (fun d hd => hk d (by simp [hd])), read_cons]
      by_cases ha : a = k
      · rw [if_neg (by omega), if_pos ha, if_pos ha]
      · rw [if_neg ha, if_neg ha]

/-- A read after a write to the same key gives the byte written, every other key reads as before. It needs no
canonical form. -/
theorem read_write (m : Memory) (k : Nat) (v : CellByte) (a : Nat) :
    Memory.read (Memory.write m k v) a = if a = k then v else Memory.read m a := by
  unfold Memory.write
  by_cases hv : v = unlisted
  · simp only [hv, if_true, read_filter]
  · simp only [hv, if_false]
    rw [read_insert (by simp), read_filter]
    split <;> rfl

theorem read_write_same (m : Memory) (k : Nat) (v : CellByte) : Memory.read (Memory.write m k v) k = v := by
  simp [read_write]

theorem read_write_other (m : Memory) {k a : Nat} (h : a ≠ k) (v : CellByte) :
    Memory.read (Memory.write m k v) a = Memory.read m a := by
  simp [read_write, h]

/-! The canonical form. -/

theorem wf_nil : Memory.wf [] := ⟨List.Pairwise.nil, by simp⟩

theorem mem_insert {m : Memory} {k : Nat} {v : CellByte} {c : Host.Cell} :
    c ∈ Memory.insert k v m ↔ c = (k, v) ∨ c ∈ m := by
  induction m with
  | nil => simp [Memory.insert]
  | cons d m ih =>
    simp only [Memory.insert]
    split
    · simp
    · simp only [List.mem_cons, ih]
      tauto

theorem pairwise_insert {m : Memory} (hp : m.Pairwise (fun c d => c.1 < d.1)) {k : Nat}
    (hk : ∀ c ∈ m, c.1 ≠ k) (v : CellByte) : (Memory.insert k v m).Pairwise (fun c d => c.1 < d.1) := by
  induction m with
  | nil => simp [Memory.insert]
  | cons d m ih =>
    have hd := List.pairwise_cons.1 hp
    simp only [Memory.insert]
    split
    next hlt =>
      refine List.pairwise_cons.2 ⟨fun c hc => ?_, hp⟩
      rcases List.mem_cons.1 hc with rfl | hm
      · exact hlt
      · exact Nat.lt_trans hlt (hd.1 c hm)
    next hge =>
      refine List.pairwise_cons.2 ⟨fun c hc => ?_, ih hd.2 (fun c hc => hk c (by simp [hc]))⟩
      have hdk := hk d (by simp)
      rcases mem_insert.1 hc with rfl | hm
      · show d.1 < k
        omega
      · exact hd.1 c hm

/-- Writing keeps the canonical form. -/
theorem wf_write {m : Memory} (h : Memory.wf m) (k : Nat) (v : CellByte) : Memory.wf (Memory.write m k v) := by
  have hp := h.1.filter (fun c => decide (c.1 ≠ k))
  have hn : ∀ c ∈ m.filter (fun c => decide (c.1 ≠ k)), c.2 ≠ unlisted := fun c hc => h.2 c (List.mem_of_mem_filter hc)
  unfold Memory.write
  by_cases hv : v = unlisted
  · simpa only [hv, if_true] using And.intro hp hn
  · simp only [hv, if_false]
    refine ⟨pairwise_insert hp (by simp) v, fun c hc => ?_⟩
    rcases mem_insert.1 hc with rfl | hm
    · exact hv
    · exact hn c hm

/-- Writing a state of the cycle at a coordinate of the grid keeps every entry in the grid and the cycle. -/
theorem within_write {cfg : Config} {m : Memory} (h : Memory.within cfg m) {k : Nat} {v : CellByte}
    (hx : k % 1024 < cfg.W) (hy : k / 1024 < cfg.H) (hv : v.toNat < cfg.K) :
    Memory.within cfg (Memory.write m k v) := by
  have hm : ∀ c ∈ m.filter (fun c => decide (c.1 ≠ k)), c.1 % 1024 < cfg.W ∧ c.1 / 1024 < cfg.H ∧ c.2.toNat < cfg.K :=
    fun c hc => h c (List.mem_of_mem_filter hc)
  unfold Memory.write
  by_cases hz : v = unlisted
  · simpa only [hz, if_true] using hm
  · simp only [hz, if_false]
    intro c hc
    rcases mem_insert.1 hc with rfl | hin
    · exact ⟨hx, hy, hv⟩
    · exact hm c hin

/-- Two canonical memories that read the same everywhere are the same data. -/
theorem wf_ext {m n : Memory} (hm : Memory.wf m) (hn : Memory.wf n)
    (h : ∀ a, Memory.read m a = Memory.read n a) : m = n := by
  have mem_iff : ∀ c, c ∈ m ↔ c ∈ n := fun c => by
    constructor
    · intro hc
      have hr := read_of_mem hm.1 hc
      have := mem_of_read_ne (m := n) (a := c.1) (by rw [← h, hr]; exact hm.2 c hc)
      rwa [← h, hr] at this
    · intro hc
      have hr := read_of_mem hn.1 hc
      have := mem_of_read_ne (m := m) (a := c.1) (by rw [h, hr]; exact hn.2 c hc)
      rwa [h, hr] at this
  have nodup : ∀ {l : Memory}, Memory.wf l → l.Nodup := fun hl => hl.1.imp (fun hlt heq => by
    rw [heq] at hlt
    exact Nat.lt_irrefl _ hlt)
  refine List.Perm.eq_of_pairwise (le := fun c d => c.1 < d.1) ?_ hm.1 hn.1
    ((List.perm_ext_iff_of_nodup (nodup hm) (nodup hn)).2 mem_iff)
  intro a b _ _ h1 h2
  exact absurd (Nat.lt_trans h1 h2) (Nat.lt_irrefl _)

/-- Writes under different keys commute. -/
theorem write_comm {m : Memory} (h : Memory.wf m) {k l : Nat} (hkl : k ≠ l) (v u : CellByte) :
    Memory.write (Memory.write m k v) l u = Memory.write (Memory.write m l u) k v := by
  refine wf_ext (wf_write (wf_write h k v) l u) (wf_write (wf_write h l u) k v) fun a => ?_
  simp only [read_write]
  by_cases h1 : a = k <;> by_cases h2 : a = l <;> simp_all

/-- A cell of a grid that stays within the cycle is in `[0, K)` (R22). -/
theorem cellAt_lt {cfg : Config} {m : Memory} (h : Memory.within cfg m) (x y : Nat) : cellAt m x y < cfg.K := by
  unfold cellAt
  by_cases hz : Memory.read m (coordKey x y) = unlisted
  · rw [hz]
    exact cfg.K_range.1
  · exact (h _ (mem_of_read_ne hz)).2.2

/-- Different coordinates of the cell space have different keys (R40: x and y are below 1024). -/
theorem coordKey_inj {x y x' y' : Nat} (hx : x < 1024) (hx' : x' < 1024) :
    coordKey x y = coordKey x' y' ↔ x = x' ∧ y = y' := by
  unfold coordKey
  omega

theorem coordKey_mod {x : Nat} (hx : x < 1024) (y : Nat) : coordKey x y % 1024 = x := by
  unfold coordKey
  omega

theorem coordKey_div {x : Nat} (hx : x < 1024) (y : Nat) : coordKey x y / 1024 = y := by
  unfold coordKey
  omega

end Sys2Proof.Machine
end

