-- ==== Sys2Proof/Laws/State.lean ====
section
/-! SUPPORT. The small lemmas of the state record: one per field per update, so that no later proof unfolds one. -/

namespace Sys2Proof.Machine

variable (s : State)

@[simp] theorem respond_cfg (st : Status) (p : Payload) : (respond st p s).cfg = s.cfg := rfl
@[simp] theorem respond_buf0 (st : Status) (p : Payload) : (respond st p s).buf0 = s.buf0 := rfl
@[simp] theorem respond_buf1 (st : Status) (p : Payload) : (respond st p s).buf1 = s.buf1 := rfl
@[simp] theorem respond_sel (st : Status) (p : Payload) : (respond st p s).sel = s.sel := rfl
@[simp] theorem respond_fault (st : Status) (p : Payload) : (respond st p s).fault = s.fault := rfl
@[simp] theorem respond_cause (st : Status) (p : Payload) : (respond st p s).cause = s.cause := rfl
@[simp] theorem respond_inbox (st : Status) (p : Payload) : (respond st p s).inbox = s.inbox := rfl
@[simp] theorem respond_responses (st : Status) (p : Payload) : (respond st p s).responses = s.responses ++ [responseWord st p] := rfl

@[simp] theorem setFault_cfg (c : Cause) : (setFault c s).cfg = s.cfg := rfl
@[simp] theorem setFault_buf0 (c : Cause) : (setFault c s).buf0 = s.buf0 := rfl
@[simp] theorem setFault_buf1 (c : Cause) : (setFault c s).buf1 = s.buf1 := rfl
@[simp] theorem setFault_sel (c : Cause) : (setFault c s).sel = s.sel := rfl
@[simp] theorem setFault_fault (c : Cause) : (setFault c s).fault = true := rfl
@[simp] theorem setFault_cause (c : Cause) : (setFault c s).cause = c := rfl
@[simp] theorem setFault_inbox (c : Cause) : (setFault c s).inbox = s.inbox := rfl
@[simp] theorem setFault_responses (c : Cause) : (setFault c s).responses = s.responses := rfl

@[simp] theorem raiseFault_cfg (c : Cause) : (raiseFault c s).cfg = s.cfg := rfl
@[simp] theorem raiseFault_buf0 (c : Cause) : (raiseFault c s).buf0 = s.buf0 := rfl
@[simp] theorem raiseFault_buf1 (c : Cause) : (raiseFault c s).buf1 = s.buf1 := rfl
@[simp] theorem raiseFault_sel (c : Cause) : (raiseFault c s).sel = s.sel := rfl
@[simp] theorem raiseFault_fault (c : Cause) : (raiseFault c s).fault = true := rfl
@[simp] theorem raiseFault_cause (c : Cause) : (raiseFault c s).cause = c := rfl
@[simp] theorem raiseFault_inbox (c : Cause) : (raiseFault c s).inbox = s.inbox := rfl
@[simp] theorem raiseFault_responses (c : Cause) : (raiseFault c s).responses = s.responses ++ [responseWord (.raised c) 0#28] := rfl

@[simp] theorem refuse_cfg : (refuse s).cfg = s.cfg := rfl
@[simp] theorem refuse_buf0 : (refuse s).buf0 = s.buf0 := rfl
@[simp] theorem refuse_buf1 : (refuse s).buf1 = s.buf1 := rfl
@[simp] theorem refuse_sel : (refuse s).sel = s.sel := rfl
@[simp] theorem refuse_fault : (refuse s).fault = s.fault := rfl
@[simp] theorem refuse_cause : (refuse s).cause = s.cause := rfl
@[simp] theorem refuse_inbox : (refuse s).inbox = s.inbox := rfl
@[simp] theorem refuse_responses : (refuse s).responses = s.responses ++ [responseWord .faulted 0#28] := rfl

@[simp] theorem toggleSel_cfg : (toggleSel s).cfg = s.cfg := rfl
@[simp] theorem toggleSel_buf0 : (toggleSel s).buf0 = s.buf0 := rfl
@[simp] theorem toggleSel_buf1 : (toggleSel s).buf1 = s.buf1 := rfl
@[simp] theorem toggleSel_sel : (toggleSel s).sel = (!s.sel) := rfl
@[simp] theorem toggleSel_fault : (toggleSel s).fault = s.fault := rfl
@[simp] theorem toggleSel_cause : (toggleSel s).cause = s.cause := rfl
@[simp] theorem toggleSel_inbox : (toggleSel s).inbox = s.inbox := rfl
@[simp] theorem toggleSel_responses : (toggleSel s).responses = s.responses := rfl

@[simp] theorem hostReset_cfg : (hostReset s).cfg = s.cfg := rfl
@[simp] theorem hostReset_buf0 : (hostReset s).buf0 = [] := rfl
@[simp] theorem hostReset_buf1 : (hostReset s).buf1 = [] := rfl
@[simp] theorem hostReset_sel : (hostReset s).sel = false := rfl
@[simp] theorem hostReset_fault : (hostReset s).fault = false := rfl
@[simp] theorem hostReset_cause : (hostReset s).cause = .none := rfl
@[simp] theorem hostReset_inbox : (hostReset s).inbox = s.inbox := rfl
@[simp] theorem hostReset_responses : (hostReset s).responses = s.responses := rfl

@[simp] theorem presentWord_cfg (w : Word) : (presentWord w s).cfg = s.cfg := rfl
@[simp] theorem presentWord_buf0 (w : Word) : (presentWord w s).buf0 = s.buf0 := rfl
@[simp] theorem presentWord_buf1 (w : Word) : (presentWord w s).buf1 = s.buf1 := rfl
@[simp] theorem presentWord_sel (w : Word) : (presentWord w s).sel = s.sel := rfl
@[simp] theorem presentWord_fault (w : Word) : (presentWord w s).fault = s.fault := rfl
@[simp] theorem presentWord_cause (w : Word) : (presentWord w s).cause = s.cause := rfl
@[simp] theorem presentWord_inbox (w : Word) : (presentWord w s).inbox = .command w :: s.inbox := rfl
@[simp] theorem presentWord_responses (w : Word) : (presentWord w s).responses = s.responses := rfl

/-! `BUF[b]` and the two views of it. -/

@[simp] theorem buf_false : s.buf false = s.buf0 := rfl
@[simp] theorem buf_true : s.buf true = s.buf1 := rfl
theorem front_eq : s.front = s.buf s.sel := rfl
theorem back_eq : s.back = s.buf (!s.sel) := rfl

@[simp] theorem respond_buf (st : Status) (p : Payload) (b : Bool) : (respond st p s).buf b = s.buf b := rfl
@[simp] theorem respond_front (st : Status) (p : Payload) : (respond st p s).front = s.front := rfl
@[simp] theorem respond_back (st : Status) (p : Payload) : (respond st p s).back = s.back := rfl
@[simp] theorem setFault_buf (c : Cause) (b : Bool) : (setFault c s).buf b = s.buf b := rfl
@[simp] theorem setFault_front (c : Cause) : (setFault c s).front = s.front := rfl
@[simp] theorem setFault_back (c : Cause) : (setFault c s).back = s.back := rfl
@[simp] theorem raiseFault_buf (c : Cause) (b : Bool) : (raiseFault c s).buf b = s.buf b := rfl
@[simp] theorem raiseFault_front (c : Cause) : (raiseFault c s).front = s.front := rfl
@[simp] theorem raiseFault_back (c : Cause) : (raiseFault c s).back = s.back := rfl
@[simp] theorem refuse_buf (b : Bool) : (refuse s).buf b = s.buf b := rfl
@[simp] theorem refuse_front : (refuse s).front = s.front := rfl
@[simp] theorem refuse_back : (refuse s).back = s.back := rfl
@[simp] theorem toggleSel_buf (b : Bool) : (toggleSel s).buf b = s.buf b := rfl
@[simp] theorem hostReset_buf (b : Bool) : (hostReset s).buf b = [] := by cases b <;> rfl
@[simp] theorem hostReset_front : (hostReset s).front = [] := rfl
@[simp] theorem hostReset_back : (hostReset s).back = [] := rfl
@[simp] theorem presentWord_buf (w : Word) (b : Bool) : (presentWord w s).buf b = s.buf b := rfl
@[simp] theorem presentWord_front (w : Word) : (presentWord w s).front = s.front := rfl
@[simp] theorem presentWord_back (w : Word) : (presentWord w s).back = s.back := rfl

/-- The swap makes the back buffer the front buffer (R23). -/
@[simp] theorem toggleSel_front : (toggleSel s).front = s.back := rfl

/-- The swap makes the front buffer the back buffer (R23). -/
@[simp] theorem toggleSel_back : (toggleSel s).back = s.front := by
  simp [State.back, State.front]

/-! Replacing a buffer. -/

@[simp] theorem setBuf_cfg (b : Bool) (m : Memory) : (s.setBuf b m).cfg = s.cfg := by cases b <;> rfl
@[simp] theorem setBuf_sel (b : Bool) (m : Memory) : (s.setBuf b m).sel = s.sel := by cases b <;> rfl
@[simp] theorem setBuf_fault (b : Bool) (m : Memory) : (s.setBuf b m).fault = s.fault := by cases b <;> rfl
@[simp] theorem setBuf_cause (b : Bool) (m : Memory) : (s.setBuf b m).cause = s.cause := by cases b <;> rfl
@[simp] theorem setBuf_inbox (b : Bool) (m : Memory) : (s.setBuf b m).inbox = s.inbox := by cases b <;> rfl
@[simp] theorem setBuf_responses (b : Bool) (m : Memory) : (s.setBuf b m).responses = s.responses := by cases b <;> rfl
@[simp] theorem setBuf_buf (b : Bool) (m : Memory) : (s.setBuf b m).buf b = m := by cases b <;> rfl
@[simp] theorem setBuf_buf_not (b : Bool) (m : Memory) : (s.setBuf b m).buf (!b) = s.buf (!b) := by cases b <;> rfl
@[simp] theorem setBuf_not_buf (b : Bool) (m : Memory) : (s.setBuf (!b) m).buf b = s.buf b := by cases b <;> rfl

/-- The other buffer is as it was. -/
theorem setBuf_buf_of_ne (b c : Bool) (m : Memory) (h : c ≠ b) : (s.setBuf b m).buf c = s.buf c := by
  cases b <;> cases c <;> first | rfl | exact absurd rfl h

@[simp] theorem setBuf_sel_front (m : Memory) : (s.setBuf s.sel m).front = m := by
  simp [State.front]

@[simp] theorem setBuf_sel_back (m : Memory) : (s.setBuf s.sel m).back = s.back := by
  simp [State.back]

@[simp] theorem setBuf_not_sel_front (m : Memory) : (s.setBuf (!s.sel) m).front = s.front := by
  simp [State.front]

@[simp] theorem setBuf_not_sel_back (m : Memory) : (s.setBuf (!s.sel) m).back = m := by
  simp [State.back]

/-- A property of both buffers, said of the front and the back buffer instead. -/
theorem forall_buf_iff (P : Memory → Prop) : (P s.buf0 ∧ P s.buf1) ↔ (P s.front ∧ P s.back) := by
  unfold State.front State.back
  cases s.sel <;> simp [and_comm]

/-- The state is known from its fields, with the buffers given as front and back. -/
theorem State.ext_front_back {s t : State} (hcfg : s.cfg = t.cfg) (hsel : s.sel = t.sel) (hfront : s.front = t.front)
    (hback : s.back = t.back) (hfault : s.fault = t.fault) (hcause : s.cause = t.cause) (hin : s.inbox = t.inbox)
    (hresp : s.responses = t.responses) : s = t := by
  obtain ⟨c, b0, b1, l, f, k, i, r⟩ := s
  obtain ⟨c', b0', b1', l', f', k', i', r'⟩ := t
  simp only at hcfg hsel hfault hcause hin hresp
  subst hcfg hsel hfault hcause hin hresp
  cases l <;> simp_all [State.front, State.back]

/-! Storing a cell. -/

@[simp] theorem storeCell_cfg (b : Bool) (x y v : Nat) : (storeCell b x y v s).cfg = s.cfg := by simp [storeCell]
@[simp] theorem storeCell_sel (b : Bool) (x y v : Nat) : (storeCell b x y v s).sel = s.sel := by simp [storeCell]
@[simp] theorem storeCell_fault (b : Bool) (x y v : Nat) : (storeCell b x y v s).fault = s.fault := by simp [storeCell]
@[simp] theorem storeCell_cause (b : Bool) (x y v : Nat) : (storeCell b x y v s).cause = s.cause := by simp [storeCell]
@[simp] theorem storeCell_inbox (b : Bool) (x y v : Nat) : (storeCell b x y v s).inbox = s.inbox := by simp [storeCell]
@[simp] theorem storeCell_responses (b : Bool) (x y v : Nat) : (storeCell b x y v s).responses = s.responses := by simp [storeCell]

@[simp] theorem storeCell_buf (b : Bool) (x y v : Nat) :
    (storeCell b x y v s).buf b = Memory.write (s.buf b) (coordKey x y) (BitVec.ofNat 8 v) := by
  simp [storeCell]

@[simp] theorem storeCell_buf_not (b : Bool) (x y v : Nat) : (storeCell b x y v s).buf (!b) = s.buf (!b) := by
  simp [storeCell]

@[simp] theorem storeCell_not_buf (b : Bool) (x y v : Nat) : (storeCell (!b) x y v s).buf b = s.buf b := by
  simp [storeCell]

end Sys2Proof.Machine
end

