-- ==== Sys2Proof/Laws/Stepper.lean ====
section
/-! SUPPORT. What the stepper's functions give: ranges, and the cells of the next grid. -/

namespace Sys2Proof.Machine

/-- The successor of a state of the cycle is a state of the cycle (R100, R110). -/
theorem succState_lt {cfg : Config} {c : Nat} (h : c < cfg.K) : succState cfg c < cfg.K := by
  unfold succState
  split <;> omega

/-- A next state is a state of the cycle (R110). -/
theorem cellnext_lt {cfg : Config} {g : Memory} (h : Memory.within cfg g) (x y : Nat) : cellnext cfg g x y < cfg.K := by
  unfold cellnext
  split
  · exact succState_lt (cellAt_lt h x y)
  · exact cellAt_lt h x y

theorem statesInRange_of_within {cfg : Config} {g : Memory} (h : Memory.within cfg g) : statesInRange cfg g = true := by
  simp only [statesInRange, List.all_eq_true, decide_eq_true_eq]
  exact fun c hc => (h c hc).2.2

theorem mem_allCoords {cfg : Config} {c : Nat × Nat} : c ∈ allCoords cfg ↔ c.1 < cfg.W ∧ c.2 < cfg.H := by
  obtain ⟨x, y⟩ := c
  simp only [allCoords, List.mem_flatMap, List.mem_map, List.mem_range, Prod.mk.injEq]
  constructor
  · rintro ⟨b, hb, a, ha, rfl, rfl⟩
    exact ⟨ha, hb⟩
  · rintro ⟨hx, hy⟩
    exact ⟨y, hy, x, hx, rfl, rfl⟩

/-- The keys of the coordinates rise strictly in the order of `allCoords`. -/
theorem allCoords_rising (cfg : Config) :
    (allCoords cfg).Pairwise (fun c d => coordKey c.1 c.2 < coordKey d.1 d.2) := by
  have hW := cfg.W_range
  unfold allCoords
  refine List.pairwise_flatMap.2 ⟨fun y _ => ?_, ?_⟩
  · rw [List.pairwise_map]
    exact List.pairwise_lt_range.imp (fun h => by simp only [coordKey]; omega)
  · refine List.pairwise_lt_range.imp fun {a b} hab c hc d hd => ?_
    simp only [List.mem_map, List.mem_range] at hc hd
    obtain ⟨x, hx, rfl⟩ := hc
    obtain ⟨x', hx', rfl⟩ := hd
    simp only [coordKey]
    omega

theorem allCoords_nodup (cfg : Config) : (allCoords cfg).Nodup :=
  (allCoords_rising cfg).imp (fun h e => by rw [e] at h; exact Nat.lt_irrefl _ h)

theorem mem_stepGrid {cfg : Config} {g : Memory} {e : Host.Cell} : e ∈ stepGrid cfg g ↔
    ∃ x y, x < cfg.W ∧ y < cfg.H ∧ e = (coordKey x y, BitVec.ofNat 8 (cellnext cfg g x y)) ∧ e.2 ≠ unlisted := by
  simp only [stepGrid, List.mem_filterMap, mem_allCoords, nextEntry]
  constructor
  · rintro ⟨⟨x, y⟩, ⟨hx, hy⟩, h⟩
    simp only at h
    split at h
    · cases h
    next hne =>
      cases h
      exact ⟨x, y, hx, hy, rfl, hne⟩
  · rintro ⟨x, y, hx, hy, rfl, hne⟩
    exact ⟨(x, y), ⟨hx, hy⟩, by simp only; rw [if_neg hne]⟩

/-- The next grid has the canonical form, whatever the grid it is computed from. -/
theorem wf_stepGrid (cfg : Config) (g : Memory) : Memory.wf (stepGrid cfg g) := by
  refine ⟨?_, fun e he => ?_⟩
  · refine List.Pairwise.filterMap _ ?_ (allCoords_rising cfg)
    intro c d hlt e he f hf
    simp only [nextEntry] at he hf
    split at he
    · cases he
    · split at hf
      · cases hf
      · cases he
        cases hf
        exact hlt
  · obtain ⟨_, _, _, _, _, hne⟩ := mem_stepGrid.1 he
    exact hne

/-- The next grid stays within the grid and the cycle (R109, R110). -/
theorem within_stepGrid {cfg : Config} {g : Memory} (h : Memory.within cfg g) :
    Memory.within cfg (stepGrid cfg g) := by
  intro e he
  obtain ⟨x, y, hx, hy, rfl, _⟩ := mem_stepGrid.1 he
  have hW := cfg.W_range
  have hK := cfg.K_range
  have hlt := cellnext_lt h x y
  refine ⟨by rw [coordKey_mod (by omega)]; exact hx, by rw [coordKey_div (by omega)]; exact hy, ?_⟩
  simp only [BitVec.toNat_ofNat]
  omega

/-- Every cell of the next grid is the next state of that cell (R104). -/
theorem cellAt_stepGrid {cfg : Config} {g : Memory} (h : Memory.within cfg g) {x y : Nat} (hx : x < cfg.W)
    (hy : y < cfg.H) : cellAt (stepGrid cfg g) x y = cellnext cfg g x y := by
  have hK := cfg.K_range
  have hW := cfg.W_range
  have hlt := cellnext_lt h x y
  unfold cellAt
  by_cases hv : BitVec.ofNat 8 (cellnext cfg g x y) = unlisted
  · rw [read_of_not_listed, unlisted]
    · have := congrArg BitVec.toNat hv
      simp only [BitVec.toNat_ofNat, unlisted] at this
      have h0 : (0#8).toNat = 0 := rfl
      omega
    · intro e he hkey
      obtain ⟨x', y', hx', hy', rfl, hne⟩ := mem_stepGrid.1 he
      obtain ⟨rfl, rfl⟩ := (coordKey_inj (by omega) (by omega)).1 hkey
      exact hne hv
  · have hm : (coordKey x y, BitVec.ofNat 8 (cellnext cfg g x y)) ∈ stepGrid cfg g :=
      mem_stepGrid.2 ⟨x, y, hx, hy, rfl, hv⟩
    have := read_of_mem (wf_stepGrid cfg g).1 hm
    simp only at this
    rw [this, BitVec.toNat_ofNat]
    omega

/-- A key that is no coordinate of the grid is not listed in the next grid. -/
theorem read_stepGrid_outside {cfg : Config} {g : Memory} {a : Nat}
    (h : ∀ x y, x < cfg.W → y < cfg.H → a ≠ coordKey x y) : Memory.read (stepGrid cfg g) a = unlisted := by
  refine read_of_not_listed fun e he hk => ?_
  obtain ⟨x, y, hx, hy, rfl, _⟩ := mem_stepGrid.1 he
  exact h x y hx hy hk.symm

/-- A neighbour qualifies when it exists and holds the successor (R101). -/
theorem hit_iff {cfg : Config} {g : Memory} {x y : Nat} {d : Int × Int} : hit cfg g x y d = true ↔
    ∃ c, neighbourAt cfg x y d = some c ∧ cellAt g c.1 c.2 = succState cfg (cellAt g x y) := by
  unfold hit
  split <;> simp_all

/-- Only neighbours that exist qualify (R101). -/
theorem qualifying_le_nbrcount {cfg : Config} {g : Memory} {x y n : Nat} (h : nbrcount cfg x y = some n) :
    qualifying cfg g x y ≤ n := by
  obtain ⟨-, rfl⟩ := located_eq_some.1 h
  refine List.countP_mono_left fun d _ hd => ?_
  obtain ⟨c, hc, -⟩ := hit_iff.1 hd
  simp [hc]

end Sys2Proof.Machine
end

