-- ==== Sys2Proof/Laws/Ops.lean ====
section
/-! SUPPORT. What each shared operation can do, said once. -/

namespace Sys2Proof.Machine

theorem coordViolation_none {cfg : Config} {x y : Nat} :
    coordViolation cfg x y = none ↔ x < cfg.W ∧ y < cfg.H := by
  unfold coordViolation
  split <;> simp_all [inGrid_iff]

theorem coordViolation_some {cfg : Config} {x y : Nat} {c : Cause} :
    coordViolation cfg x y = some c ↔ ¬(x < cfg.W ∧ y < cfg.H) ∧ c = .coordRange := by
  unfold coordViolation
  split
  next h => simp [inGrid_iff.1 h]
  next h => rw [inGrid_iff] at h; simp [h, eq_comm]

theorem wrcellViolation_none {cfg : Config} {x y v : Nat} :
    wrcellViolation cfg x y v = none ↔ x < cfg.W ∧ y < cfg.H ∧ v < cfg.K := by
  unfold wrcellViolation
  split
  next c h =>
    have := coordViolation_some.1 h
    simp only [reduceCtorEq, false_iff]
    tauto
  next h =>
    have := coordViolation_none.1 h
    split <;> simp_all

/-- A violation is the refusal of a faulted engine, or fault entry. -/
theorem violated_cases (c : Cause) (s : State) :
    (s.fault = true ∧ violated c s = refuse s) ∨ (s.fault = false ∧ violated c s = raiseFault c s) := by
  unfold violated
  cases s.fault <;> simp

/-- Everything a guarded command can do: a violation, the refusal of a faulted engine, or its own effect. -/
theorem perform_cases (v : Option Cause) (f : State → Host.Outcome State Fault Refusal) (s : State) :
    (∃ c, v = some c ∧ perform v f s = .next (violated c s)) ∨
      (v = none ∧ s.fault = true ∧ perform v f s = .next (refuse s)) ∨
      (v = none ∧ s.fault = false ∧ perform v f s = f s) := by
  unfold perform
  cases v <;> cases s.fault <;> simp

/-- A live engine whose command violates nothing has the command's own effect. -/
theorem perform_live (f : State → Host.Outcome State Fault Refusal) {s : State} (h : s.fault = false) :
    perform none f s = f s := by
  simp [perform, h]

/-- A faulted engine refuses a guarded command, whatever its operands. -/
theorem perform_faulted (v : Option Cause) (f : State → Host.Outcome State Fault Refusal) {s : State}
    (h : s.fault = true) : perform v f s = .next (refuse s) := by
  cases v <;> simp [perform, violated, h]

/-- If a generation answers a next state, it is the one of R105. -/
theorem generation_next {s t : State} (h : generation s = .next t) :
    statesInRange s.cfg s.front = true ∧
      t = respond .ok 0#28 (toggleSel (s.setBuf (!s.sel) (stepGrid s.cfg s.front))) := by
  unfold generation at h
  split at h
  next hr => exact ⟨hr, (Host.Outcome.next.inj h).symm⟩
  · cases h

/-- Everything a cell read can do (R41). -/
theorem cellRead_eq_some {b : Bool} {x y v : Nat} {s : State} :
    cellRead b x y s = some v ↔ (x < s.cfg.W ∧ y < s.cfg.H ∧ v < s.cfg.K) ∧ v = cellAt (s.buf b) x y := by
  unfold cellRead
  split
  next h =>
    simp only [Option.some.injEq]
    constructor
    · rintro rfl
      exact ⟨h, rfl⟩
    · exact fun hv => hv.2.symm
  next h =>
    simp only [reduceCtorEq, false_iff]
    rintro ⟨hr, rfl⟩
    exact h hr

theorem cellRead_eq_none {b : Bool} {x y : Nat} {s : State} :
    cellRead b x y s = none ↔ ¬(x < s.cfg.W ∧ y < s.cfg.H ∧ cellAt (s.buf b) x y < s.cfg.K) := by
  simp [cellRead]

/-- Everything a cell write can do (R41). -/
theorem cellWrite_eq_some {b : Bool} {x y v : Nat} {s t : State} :
    cellWrite b x y v s = some t ↔ (x < s.cfg.W ∧ y < s.cfg.H ∧ v < s.cfg.K) ∧ t = storeCell b x y v s := by
  unfold cellWrite
  split
  next h => simp only [h, true_and, and_self, Option.some.injEq, eq_comm]
  next h => simp [h]

theorem cellWrite_eq_none {b : Bool} {x y v : Nat} {s : State} :
    cellWrite b x y v s = none ↔ ¬(x < s.cfg.W ∧ y < s.cfg.H ∧ v < s.cfg.K) := by
  simp [cellWrite]

/-- If an effect of a cell access answers a next state, the access had a behaviour. -/
theorem withAccess_next {α : Type} {access : Option α} {effect : α → Host.Outcome State Fault Refusal} {t : State}
    (h : withAccess access effect = .next t) : ∃ a, access = some a ∧ effect a = .next t := by
  cases access with
  | none => cases h
  | some a => exact ⟨a, rfl, h⟩

/-- If the write of a cell answers a next state, that cell holds the state written, and only the response is new besides. -/
theorem writeFront_next {x y v : Nat} {s t : State} (h : writeFront x y v s = .next t) :
    (x < s.cfg.W ∧ y < s.cfg.H ∧ v < s.cfg.K) ∧ t = respond .ok 0#28 (storeCell s.sel x y v s) := by
  obtain ⟨u, hu, hnext⟩ := withAccess_next h
  obtain ⟨hr, rfl⟩ := cellWrite_eq_some.1 hu
  exact ⟨hr, (Host.Outcome.next.inj hnext).symm⟩

/-- A write that meets the requirements of R41 completes. -/
theorem writeFront_of_range {x y v : Nat} {s : State} (hx : x < s.cfg.W) (hy : y < s.cfg.H) (hv : v < s.cfg.K) :
    writeFront x y v s = .next (respond .ok 0#28 (storeCell s.sel x y v s)) := by
  rw [writeFront, cellWrite_eq_some.2 ⟨⟨hx, hy, hv⟩, rfl⟩, withAccess]

/-- If the read of a cell answers a next state, only the response is new. -/
theorem readFront_next {x y : Nat} {s t : State} (h : readFront x y s = .next t) :
    (x < s.cfg.W ∧ y < s.cfg.H ∧ cellAt s.front x y < s.cfg.K) ∧
      t = respond .ok (BitVec.ofNat 28 (cellAt s.front x y)) s := by
  obtain ⟨v, hv, hnext⟩ := withAccess_next h
  obtain ⟨hr, rfl⟩ := cellRead_eq_some.1 hv
  exact ⟨hr, (Host.Outcome.next.inj hnext).symm⟩

/-- A read that meets the requirements of R41, of a state of the cycle, completes. -/
theorem readFront_of_range {x y : Nat} {s : State} (hx : x < s.cfg.W) (hy : y < s.cfg.H)
    (hv : cellAt s.front x y < s.cfg.K) :
    readFront x y s = .next (respond .ok (BitVec.ofNat 28 (cellAt s.front x y)) s) := by
  rw [readFront, cellRead_eq_some.2 ⟨⟨hx, hy, hv⟩, rfl⟩, withAccess]

/-- If the answer to an NBRS is a next state, only the response is new. -/
theorem answerNbrs_next {x y : Nat} {s t : State} (h : answerNbrs x y s = .next t) :
    ∃ p, nbrsPayload s.cfg x y = some p ∧ t = respond .ok p s := by
  obtain ⟨p, hp, hnext⟩ := withAccess_next h
  exact ⟨p, hp, (Host.Outcome.next.inj hnext).symm⟩

/-- An NBRS that has a payload completes. -/
theorem answerNbrs_of_payload {x y : Nat} {s : State} {p : Payload} (h : nbrsPayload s.cfg x y = some p) :
    answerNbrs x y s = .next (respond .ok p s) := by
  rw [answerNbrs, h, withAccess]

/-- A register is defined exactly when its number is below 5 (R29). -/
theorem readRegister_isSome {r : Nat} {s : State} : (readRegister r s).isSome = true ↔ r < 5 := by
  rcases r with _ | _ | _ | _ | _ | n <;> simp [readRegister]

theorem readRegister_none {r : Nat} {s : State} : readRegister r s = none ↔ 5 ≤ r := by
  rcases r with _ | _ | _ | _ | _ | n <;> simp [readRegister]

/-- The next event is the head of the host's list. -/
theorem nextEvent_eq_none {s : State} : nextEvent s = none ↔ s.inbox = [] := by
  unfold nextEvent
  split <;> simp_all

theorem nextEvent_eq_some {s t : State} {e : HostEvent} :
    nextEvent s = some (e, t) ↔ ∃ rest, s.inbox = e :: rest ∧ t = { s with inbox := rest } := by
  unfold nextEvent
  split
  next h => simp [h]
  next e' rest h =>
    simp only [h, Option.some.injEq, Prod.mk.injEq, List.cons.injEq]
    constructor
    · rintro ⟨rfl, rfl⟩
      exact ⟨rest, ⟨rfl, rfl⟩, rfl⟩
    · rintro ⟨_, ⟨rfl, rfl⟩, rfl⟩
      exact ⟨rfl, rfl⟩

/-- Everything one step can do: nothing when the host does nothing, one command, or one reset. -/
theorem step_cases (s : State) :
    (s.inbox = [] ∧ step s = .next s) ∨
      (∃ w rest, s.inbox = .command w :: rest ∧ step s = runWord w { s with inbox := rest }) ∨
      (∃ e rest, e.isReset = true ∧ s.inbox = e :: rest ∧ step s = .next (hostReset { s with inbox := rest })) := by
  unfold step nextEvent
  rcases hi : s.inbox with _ | ⟨e, rest⟩
  · simp
  · cases e with
    | command w => exact .inr (.inl ⟨w, rest, rfl, by simp⟩)
    | reset => exact .inr (.inr ⟨_, rest, rfl, rfl, by simp⟩)
    | resetDuring w => exact .inr (.inr ⟨_, rest, rfl, rfl, by simp⟩)

/-- A word is executed as the command of its form, or violates the encoding. -/
theorem runWord_cases (w : Word) (s : State) :
    (∃ i, decode w = .ok i ∧ runWord w s = exec i s) ∨
      (∃ r, decode w = .error r ∧ runWord w s = .next (violated .illegalCmd s)) := by
  unfold runWord
  rcases decode w with r | i <;> simp

theorem inv_iff_check (s : State) : s.Inv ↔ s.InvCheck :=
  ⟨fun h => ⟨h.wf0, h.wf1, h.within0, h.within1, h.cause_iff⟩, fun h => ⟨h.1, h.2.1, h.2.2.1, h.2.2.2.1, h.2.2.2.2⟩⟩

/-- The buffers of a state with the invariant, by number. -/
theorem State.Inv.wf_buf {s : State} (h : s.Inv) (b : Bool) : Memory.wf (s.buf b) := by
  cases b
  · exact h.wf0
  · exact h.wf1

theorem State.Inv.within_buf {s : State} (h : s.Inv) (b : Bool) : Memory.within s.cfg (s.buf b) := by
  cases b
  · exact h.within0
  · exact h.within1

/-- The invariant, said of the buffers by number. -/
theorem inv_of_bufs {s : State} (hwf : ∀ b, Memory.wf (s.buf b)) (hin : ∀ b, Memory.within s.cfg (s.buf b))
    (hc : s.cause = .none ↔ s.fault = false) : s.Inv :=
  ⟨hwf false, hwf true, hin false, hin true, hc⟩

end Sys2Proof.Machine
end

