-- ==== Sys2Proof/Laws/Micro.lean ====
section
/-! SUPPORT. What the micro-steps of STEP can do, said once. -/

namespace Sys2Proof.Machine

theorem microAllowed_iff {s : State} : microAllowed s = true ↔ s.fault = false ∧ statesInRange s.cfg s.front = true := by
  simp [microAllowed]

/-- A STEP is accepted by an engine that is not faulted, and then every cell is pending (R106). -/
theorem acceptStep_eq_some {s : State} {p : StepProgress} :
    acceptStep s = some p ↔ s.fault = false ∧ p = ⟨s, allCoords s.cfg⟩ := by
  unfold acceptStep
  cases s.fault <;> simp [eq_comm]

/-- A STEP in progress was accepted, and then updated by its schedule. -/
theorem scheduleStep_eq_some {groups : List (List (Nat × Nat))} {s : State} {p : StepProgress} :
    scheduleStep groups s = some p ↔ s.fault = false ∧ runSchedule groups ⟨s, allCoords s.cfg⟩ = some p := by
  unfold scheduleStep
  rw [Option.bind_eq_some_iff]
  constructor
  · rintro ⟨q, hq, hrun⟩
    obtain ⟨hf, rfl⟩ := acceptStep_eq_some.1 hq
    exact ⟨hf, hrun⟩
  · rintro ⟨hf, hrun⟩
    exact ⟨_, acceptStep_eq_some.2 ⟨hf, rfl⟩, hrun⟩

/-- The group of cells stored one after another, every next state computed from the front buffer of `from_`. -/
def storeGroup (from_ : State) (group : List (Nat × Nat)) (s : State) : State :=
  group.foldl (fun t c => storeCell (!from_.sel) c.1 c.2 (cellnext from_.cfg from_.front c.1 c.2) t) s

/-- If a group of writes has a behaviour, it stores the cells. -/
theorem writeGroup_some {f s t : State} {group : List (Nat × Nat)} (h : writeGroup f group s = some t) :
    t = storeGroup f group s := by
  induction group generalizing s with
  | nil => exact (Option.some.inj h).symm
  | cons c rest ih =>
    obtain ⟨u, hu, hrest⟩ := Option.bind_eq_some_iff.1 h
    obtain ⟨-, rfl⟩ := cellWrite_eq_some.1 hu
    exact ih hrest

/-- A group of writes to cells of the grid, from a front buffer in range, has a behaviour. -/
theorem writeGroup_of_range {f s : State} {group : List (Nat × Nat)} (hcfg : s.cfg = f.cfg)
    (hin : ∀ c ∈ group, c.1 < f.cfg.W ∧ c.2 < f.cfg.H) (hfront : Memory.within f.cfg f.front) :
    writeGroup f group s = some (storeGroup f group s) := by
  induction group generalizing s with
  | nil => rfl
  | cons c rest ih =>
    have hc := hin c (by simp)
    have hw : writeNext f c s = some (storeCell (!f.sel) c.1 c.2 (cellnext f.cfg f.front c.1 c.2) s) :=
      cellWrite_eq_some.2 ⟨by rw [hcfg]; exact ⟨hc.1, hc.2, cellnext_lt hfront _ _⟩, rfl⟩
    rw [writeGroup, hw, Option.bind_some, ih (by simpa using hcfg) (fun d hd => hin d (by simp [hd]))]
    rfl

/-- If a group of updates is allowed, its cells are different and pending, micro-steps are allowed, and the cells
stored are no longer pending. -/
theorem cellUpdates_some {group : List (Nat × Nat)} {p q : StepProgress} (h : cellUpdates group p = some q) :
    group.Nodup ∧ (∀ c ∈ group, c ∈ p.pending) ∧ microAllowed p.arch = true ∧
      q = ⟨storeGroup p.arch group p.arch, p.pending.filter (fun c => decide (c ∉ group))⟩ := by
  unfold cellUpdates at h
  split at h
  next hg =>
    obtain ⟨u, hu, rfl⟩ := Option.map_eq_some_iff.1 h
    exact ⟨hg.1, hg.2.1, hg.2.2, by rw [writeGroup_some hu]⟩
  · cases h

/-- If the swap is possible, nothing is pending and micro-steps are allowed. -/
theorem swapMicro_some {p : StepProgress} {t : State} (h : swapMicro p = some t) :
    p.pending = [] ∧ microAllowed p.arch = true ∧ t = respond .ok 0#28 (toggleSel p.arch) := by
  unfold swapMicro at h
  split at h
  next hp => exact ⟨hp.1, hp.2, (Option.some.inj h).symm⟩
  · cases h

/-- A stored state that is no state of the cycle is seen by the range check (R144). -/
theorem statesInRange_eq_false {cfg : Config} {g : Memory} {x y : Nat} (h : cfg.K ≤ cellAt g x y) :
    statesInRange cfg g = false := by
  have hne : Memory.read g (coordKey x y) ≠ unlisted := fun he => by
    have h0 : cellAt g x y = 0 := by unfold cellAt; rw [he]; rfl
    have := cfg.K_range.1
    omega
  refine List.all_eq_false.2 ⟨_, mem_of_read_ne hne, ?_⟩
  simpa [cellAt] using h

end Sys2Proof.Machine
end

