-- ==== Sys2Proof/Laws/PerInstr.lean ====
section
/-! SUPPORT. Statements about every command as syntax, one lemma per constructor. -/

namespace Sys2Proof.Laws.EncodedForm

/-- The word of a well-formed command has the form of that command: `w & mask = match` (R63). -/
def Statement (i : Instr) : Prop := i.wf = true → encode i &&& i.maskBits = i.matchBits

theorem wrcell (x y v : Nat) : Statement (.wrcell x y v) := by
  intro h
  simp only [Instr.wf, Bool.and_eq_true, fitsTen_iff, fitsEight_iff] at h
  refine (masked_eq_iff _ (k := 28) rfl).2 ?_
  rw [encode, toNat_pack (by decide) h.2 h.1.2 h.1.1, Instr.matchBits, BitVec.toNat_ofNat]
  omega

theorem rdcell (x y : Nat) : Statement (.rdcell x y) := by
  intro h
  simp only [Instr.wf, Bool.and_eq_true, fitsTen_iff] at h
  refine (masked_eq_iff _ (k := 20) rfl).2 ?_
  rw [encode, toNat_pack (by decide) (by decide) h.2 h.1, Instr.matchBits, BitVec.toNat_ofNat]
  omega

theorem step : Statement .step := fun _ => by decide

theorem nbrs (x y : Nat) : Statement (.nbrs x y) := by
  intro h
  simp only [Instr.wf, Bool.and_eq_true, fitsTen_iff] at h
  refine (masked_eq_iff _ (k := 20) rfl).2 ?_
  rw [encode, toNat_pack (by decide) (by decide) h.2 h.1, Instr.matchBits, BitVec.toNat_ofNat]
  omega

theorem rdreg (r : Nat) : Statement (.rdreg r) := by
  intro h
  simp only [Instr.wf, fitsTen_iff] at h
  refine (masked_eq_iff _ (k := 10) rfl).2 ?_
  rw [encode, toNat_pack (by decide) (by decide) (by decide) h, Instr.matchBits, BitVec.toNat_ofNat]
  omega

end Sys2Proof.Laws.EncodedForm
end

