-- ==== Sys2Proof/Laws/Run.lean ====
section
/-! SUPPORT. The response words, one command on a live engine, and runs of steps, each said once. -/

namespace Sys2Proof.Machine

/-- A response with status OK is its payload, zero-extended (R67). -/
theorem responseWord_ok (p : Payload) : responseWord .ok p = BitVec.ofNat 32 p.toNat := by
  apply BitVec.eq_of_toNat_eq
  have := p.isLt
  simp only [responseWord, Status.code, BitVec.toNat_append, BitVec.toNat_ofNat]
  simp
  omega

theorem responseWord_raised (c : Cause) :
    responseWord (.raised c) 0#28 = BitVec.ofNat 32 (c.code.toNat * 2 ^ 28) := by
  cases c <;> decide

theorem responseWord_faulted : responseWord .faulted 0#28 = 0x70000000#32 := by decide

/-- The cell of a grid that a write names, and the others. -/
theorem cellAt_write_same (m : Memory) (x y v : Nat) (h : v < 256) :
    cellAt (Memory.write m (coordKey x y) (BitVec.ofNat 8 v)) x y = v := by
  unfold cellAt
  rw [read_write_same, BitVec.toNat_ofNat]
  omega

/-- A step that takes a command runs its word. -/
theorem step_command {s : State} {w : Word} {rest : List HostEvent} (h : s.inbox = .command w :: rest) :
    step s = runWord w { s with inbox := rest } := by
  unfold step nextEvent
  simp [h]

/-- A step that takes one of the two resets leaves the reset state. -/
theorem step_reset {s : State} {e : HostEvent} {rest : List HostEvent} (he : e.isReset = true)
    (h : s.inbox = e :: rest) : step s = .next (hostReset { s with inbox := rest }) := by
  unfold step nextEvent
  cases e <;> simp_all [HostEvent.isReset]

theorem runSteps_zero (s : State) : runSteps 0 s = .next s := rfl

/-- One step in front of a run. -/
theorem runSteps_next {n : Nat} {s t : State} (h : step s = .next t) : runSteps (n + 1) s = runSteps n t := by
  simp [runSteps, Host.Core.run, Sys2Proof.core, h]

/-- The invariant does not speak of the host's two lists. -/
theorem State.Inv.withLists {s : State} (h : s.Inv) (inbox : List HostEvent) (responses : List Word) :
    ({ s with inbox := inbox, responses := responses } : State).Inv :=
  ⟨h.wf0, h.wf1, h.within0, h.within1, h.cause_iff⟩

end Sys2Proof.Machine
end

