-- ==== Sys2Proof/Tests/Slice0.lean ====
section
/-! SUPPORT. The tests. Every expected value is copied from a table of the spec (`spec/95_test_vectors.md` unless another file is
named), none from the model. The `witness_` theorems show, for each statement with hypotheses, concrete values that meet
them. -/

namespace Sys2Proof.Tests

open Sys2Proof Sys2Proof.Machine

/-! ## Helpers -/

/-- The canonical list of a grid literal, rows first (R12). -/
def gridOf (rows : List (List Nat)) : Memory :=
  rows.zipIdx.flatMap (fun r =>
    r.1.zipIdx.filterMap (fun c => if c.1 = 0 then none else some (coordKey c.2 r.2, BitVec.ofNat 8 c.1)))

/-- The engine of this configuration with this current generation, `SEL = 0`. -/
def live (cfg : Config) (rows : List (List Nat)) : State := { State.resetOf cfg with buf0 := gridOf rows }

/-- The same, with `SEL = 1`: the grid stands in `BUF[1]`. -/
def live1 (cfg : Config) (rows : List (List Nat)) : State :=
  { State.resetOf cfg with buf1 := gridOf rows, sel := true }

/-- An engine that has faulted with COORD_RANGE, as after command 2 of section 2.6. -/
def faulted : State := { live Config.reference [[0], [0, 2]] with fault := true, cause := .coordRange }

/-- The host sends these words next. -/
def sends (s : State) (ws : List Word) : State := { s with inbox := commandsOf ws }

/-- The host does this next. -/
def doing (s : State) (es : List HostEvent) : State := { s with inbox := es }

/-- The state an outcome goes on with. -/
def after (o : Host.Outcome State Fault Refusal) : Option State :=
  match o with
  | .next t => some t
  | .fault _ => none
  | .refused _ => none

/-- The responses of the state an outcome goes on with. -/
def answers (o : Host.Outcome State Fault Refusal) : Option (List Word) := (after o).map State.responses

def grid33 : Config := { W := 3, H := 3, K := 3, T := 2 }
def grid22 : Config := { W := 2, H := 2, K := 3, T := 2 }
def grid13 : Config := { W := 1, H := 3, K := 3, T := 1 }
def grid31 : Config := { W := 3, H := 1, K := 3, T := 2 }
def grid11 : Config := { W := 1, H := 1, K := 3, T := 2 }
def largest : Config := { W := 1024, H := 1024, K := 256, T := 15 }
def oneState : Config := { W := 3, H := 3, K := 1, T := 2 }
def highThreshold : Config := { W := 3, H := 3, K := 3, T := 8 }

/-- Generations 0 and 1 of V20. -/
def v20gen0 : List (List Nat) := [[0, 1, 2, 0], [1, 2, 2, 1], [1, 0, 0, 1], [1, 0, 2, 2]]
def v20gen1 : List (List Nat) := [[0, 2, 2, 0], [1, 0, 0, 1], [1, 1, 0, 2], [1, 0, 0, 2]]

/-! ## WellFormed: an ill-formed term for each check (R61, R70) -/

theorem test_wf_accepts_largest : (Instr.wrcell 1023 1023 255).wf = true ∧ (Instr.rdreg 1023).wf = true ∧
    Instr.step.wf = true := by decide
theorem test_wf_refuses_wrcell_x : (Instr.wrcell 1024 0 0).wf = false := by decide
theorem test_wf_refuses_wrcell_y : (Instr.wrcell 0 1024 0).wf = false := by decide
theorem test_wf_refuses_wrcell_state : (Instr.wrcell 0 0 256).wf = false := by decide
theorem test_wf_refuses_rdcell : (Instr.rdcell 1024 0).wf = false ∧ (Instr.rdcell 0 1024).wf = false := by decide
theorem test_wf_refuses_nbrs : (Instr.nbrs 1024 0).wf = false ∧ (Instr.nbrs 0 1024).wf = false := by decide
theorem test_wf_refuses_rdreg : (Instr.rdreg 1024).wf = false := by decide

/-! ## Configuration (R5 to R8) -/

theorem test_config_bounds :
    (Config.build 1024 1024 256 15).isSome = true ∧ (Config.build 1 1 1 0).isSome = true ∧
    Config.build 0 4 3 2 = none ∧ Config.build 1025 4 3 2 = none ∧ Config.build 4 0 3 2 = none ∧
    Config.build 4 1025 3 2 = none ∧ Config.build 4 4 0 2 = none ∧ Config.build 4 4 257 2 = none ∧
    Config.build 4 4 3 16 = none := by decide

/-- R8: `clog2` is the least b with `2^b ≥ n`, and a width is at least 1. -/
theorem test_widths : clog2 1 = 0 ∧ clog2 2 = 1 ∧ clog2 3 = 2 ∧ clog2 256 = 8 ∧ clog2 1024 = 10 ∧
    oneState.SW = 1 ∧ Config.reference.SW = 2 ∧ largest.SW = 8 ∧ grid11.XW = 1 ∧ largest.YW = 10 := by
  decide +kernel

/-! ## Decoding: words written out from R61 and R63, section 2.1 -/

theorem test_decode_wrcell : decode 0x10200C01#32 = .ok (.wrcell 1 3 2) ∧
    decode 0x1FFFFFFF#32 = .ok (.wrcell 1023 1023 255) ∧ encode (.wrcell 3 3 2) = 0x10200C03#32 := by decide
theorem test_decode_rdcell : decode 0x20000401#32 = .ok (.rdcell 1 1) ∧
    decode 0x200FFFFF#32 = .ok (.rdcell 1023 1023) ∧ encode (.rdcell 3 1) = 0x20000403#32 := by decide
theorem test_decode_step : decode 0x30000000#32 = .ok .step ∧ encode .step = 0x30000000#32 := by decide
theorem test_decode_nbrs : decode 0x40000C03#32 = .ok (.nbrs 3 3) ∧ decode 0x40000C02#32 = .ok (.nbrs 2 3) ∧
    encode (.nbrs 3 2) = 0x40000803#32 := by decide
theorem test_decode_rdreg : decode 0x50000004#32 = .ok (.rdreg 4) ∧ encode (.rdreg 5) = 0x50000005#32 := by decide
theorem test_decode_reserved : decode 0x00000000#32 = .error .reservedOpcode ∧
    decode 0xFFFFFFFF#32 = .error .reservedOpcode ∧ decode 0x60000000#32 = .error .reservedOpcode := by decide
theorem test_decode_nonzero : decode 0x30000001#32 = .error .nonzeroField ∧
    decode 0x20100000#32 = .error .nonzeroField ∧ decode 0x40100000#32 = .error .nonzeroField ∧
    decode 0x50000400#32 = .error .nonzeroField ∧ decode 0x50100000#32 = .error .nonzeroField := by decide
theorem test_table_word : decodeTableWord 32 0x10200C01 = some (.wrcell 1 3 2) ∧ decodeTableWord 32 0 = none := by
  decide

/-- The `decode` column of section 2.1, priorities included, and the boundary of the range checks. -/
theorem test_verdict : verdict Config.reference 0x10200C03#32 = .legal (.wrcell 3 3 2) ∧
    verdict Config.reference 0x20100009#32 = .viol .illegalCmd ∧
    verdict Config.reference 0x10300004#32 = .viol .coordRange ∧
    verdict Config.reference 0x10300000#32 = .viol .stateRange ∧
    verdict Config.reference 0x50000004#32 = .legal (.rdreg 4) ∧
    verdict Config.reference 0x50000005#32 = .viol .regRange := by decide

/-! ## One step of each command -/

/-- Section 2.5, command 15: with `SEL = 1` a WRCELL writes `BUF[1]`, and `BUF[0]` stays. -/
theorem test_wrcell_writes_the_front :
    (after (step (sends (live1 Config.reference []) [0x10200000#32]))).map
      (fun t => (t.buf0, t.buf1, t.sel, t.responses)) = some ([], gridOf [[2]], true, [0x00000000#32]) := by decide

/-- Section 2.1: both operands are bad, the coordinate is reported, no cell is written. -/
theorem test_wrcell_out_of_range :
    (after (step (sends (live Config.reference []) [0x10300004#32]))).map
      (fun t => (t.buf0, t.fault, t.cause, t.responses)) = some ([], true, .coordRange, [0x20000000#32]) := by decide

/-- Section 2.5, command 3, and the last lines: the largest coordinate and the largest state. -/
theorem test_rdcell_reads :
    answers (step (sends (live Config.reference [[], [], [], [0, 2]]) [0x20000C01#32])) = some [0x00000002#32] ∧
    answers (step (sends { State.resetOf largest with buf0 := [(coordKey 1023 1023, 255#8)] } [0x200FFFFF#32])) =
      some [0x000000FF#32] := by decide

/-- Section 2.5, command 4: x and y are not interchangeable. -/
theorem test_rdcell_order_of_coordinates :
    answers (step (sends (live Config.reference [[], [], [], [0, 2]]) [0x20000403#32])) = some [0x00000000#32] := by
  decide

/-- V20, generation 0 to 1. -/
theorem test_step_generation :
    (after (step (sends (live Config.reference v20gen0) [0x30000000#32]))).map
      (fun t => (t.buf0, t.buf1, t.sel, t.responses)) =
      some (gridOf v20gen0, gridOf v20gen1, true, [0x00000000#32]) := by decide

/-- V18 with `SEL = 1`: K = 2, both directions of the cycle in one step. -/
theorem test_step_wraps_the_cycle :
    (after (step (sends (live1 { W := 3, H := 3, K := 2, T := 2 } [[0, 1, 0], [1, 0, 1], [0, 1, 0]])
      [0x30000000#32]))).map (fun t => (t.buf0, t.sel)) = some (gridOf [[0, 0, 0], [0, 1, 0], [0, 0, 0]], false) := by
  decide

/-- Section 2.2, the 4×4 edge and the 1024-wide corner. -/
theorem test_nbrs_edge_and_corner :
    answers (step (sends State.reset [0x40000001#32])) = some [0x000005D6#32] ∧
    answers (step (sends (State.resetOf largest) [0x400003FF#32])) = some [0x00000316#32] := by decide

/-- Section 2.2, grids of one column and one cell. -/
theorem test_nbrs_thin_grids :
    answers (step (sends (State.resetOf grid13) [0x40000400#32])) = some [0x00000218#32] ∧
    answers (step (sends (State.resetOf grid31) [0x40000001#32])) = some [0x00000242#32] ∧
    answers (step (sends (State.resetOf grid11) [0x40000000#32])) = some [0x00000000#32] := by decide

/-- Section 2.6, commands 5 and 9: a faulted engine reads STATUS, and refuses a reserved register keeping its cause. -/
theorem test_rdreg_while_faulted :
    answers (step (sends faulted [0x50000000#32])) = some [0x0000000A#32] ∧
    (after (step (sends faulted [0x50000005#32]))).map (fun t => (t.cause, t.responses)) =
      some (.coordRange, [0x70000000#32]) := by decide

/-- Section 2.5, the last line, and section 2.1: register 3 for K = 256, and the first reserved register. -/
theorem test_rdreg_values :
    answers (step (sends (State.resetOf largest) [0x50000003#32])) = some [0x00000100#32] ∧
    (after (step (sends State.reset [0x50000005#32]))).map (fun t => (statusRegister t, t.responses)) =
      some (0x12#28, [0x40000000#32]) := by decide

/-- Section 2.6, command 11: reset clears the grid and the fault. -/
theorem test_reset_clears : (after (step (doing faulted [.reset]))).map
    (fun t => (t.buf0, t.buf1, t.sel, t.fault, t.cause)) = some ([], [], false, false, .none) := by decide

/-- The host presents a word with `withFetchWord`, and the very next step runs it. -/
theorem test_fetch_word : answers (step (State.reset.withFetchWord 32 0x40000802)) = some [0x000008FF#32] := by decide

/-! ## The functions of the stepper (section 2.3) -/

theorem test_succ : [0, 1, 2].map (succState grid33) = [1, 2, 0] ∧ succState oneState 0 = 0 ∧
    succState largest 254 = 255 ∧ succState largest 255 = 0 := by decide

/-- V10 (count 8 at the centre), V19b (T = 8) and V2a (the wrap). -/
theorem test_cellnext : qualifying grid33 (gridOf [[1, 1, 1], [1, 0, 1], [1, 1, 1]]) 1 1 = 8 ∧
    cellnext grid33 (gridOf [[1, 1, 1], [1, 0, 1], [1, 1, 1]]) 1 1 = 1 ∧
    cellnext highThreshold (gridOf [[1, 1, 1], [1, 0, 1], [1, 1, 1]]) 1 1 = 0 ∧
    cellnext grid33 (gridOf [[0, 0, 0], [1, 2, 1], [1, 1, 1]]) 1 1 = 0 := by decide

/-! ## Assembler (R70, R71) -/

theorem test_assemble : assemble grid22 "WRCELL 1, 0x3, 2 # a comment\n\nRUN 2\n.word 0xFFFFFFFF\nSTATUS".toList =
    some [0x10200C01#32, 0x30000000#32, 0x30000000#32, 0xFFFFFFFF#32, 0x50000000#32] := by decide
theorem test_assemble_grid : assemble grid22 "SEED 0 1 / 2 0".toList =
    some [0x10000000#32, 0x10100001#32, 0x10200400#32, 0x10000401#32] := by decide
theorem test_assemble_refuses : assemble grid22 "WRCELL 1024, 0, 0".toList = none ∧
    assemble grid22 "wrcell 0, 0, 0".toList = none ∧ assemble grid22 "SEED 0 1".toList = none := by decide

/-! ## Witnesses: the hypotheses of the statements can be met -/

/-- A state meets the invariant when the check says so. -/
theorem inv_by_check {s : State} (h : s.InvCheck) : s.Inv := (inv_iff_check s).2 h

theorem v20_inv : (live Config.reference v20gen0).Inv := inv_by_check (by decide)

theorem witness_EncodingIsOneToOne : (Instr.wrcell 1023 1023 255).wf = true ∧
    decode 0x1FFFFFFF#32 = .ok (.wrcell 1023 1023 255) ∧
    (opField 0x20100000#32 = 2 ∧ sField 0x20100000#32 ≠ 0) ∧ (opField 0x4FF00000#32 = 4 ∧ sField 0x4FF00000#32 ≠ 0) ∧
    (opField 0x50100000#32 = 5 ∧ sField 0x50100000#32 ≠ 0) ∧ (opField 0x50000400#32 = 5 ∧ yField 0x50000400#32 ≠ 0) ∧
    (opField 0x30000001#32 = 3 ∧ xField 0x30000001#32 ≠ 0) ∧ (opField 0x30000400#32 = 3 ∧ yField 0x30000400#32 ≠ 0) ∧
    (opField 0x30100000#32 = 3 ∧ sField 0x30100000#32 ≠ 0) := by decide

theorem witness_FormIsMaskAndMatch : 0x50000005#32 &&& (Instr.rdreg 0).maskBits = (Instr.rdreg 0).matchBits ∧
    0x50000005#32 &&& (Instr.rdreg 5).maskBits = (Instr.rdreg 5).matchBits := by decide

theorem witness_AssembledWordIsSumOfFields : (0 ≤ 1023 ∧ 1023 ≤ 1023 ∧ 255 ≤ 255) ∧
    (encode (.wrcell 0 1023 255)).toNat = 0x1FFFFC00 := by decide

theorem witness_IllegalWordsRaiseIllegalCmd :
    let s := sends State.reset [0x20100009#32]
    s.inbox = .command 0x20100009#32 :: [] ∧ s.fault = false ∧ s.cause = .none ∧
    (opField 0x20100009#32 = 2 ∧ sField 0x20100009#32 ≠ 0) ∧ opField 0x00000000#32 = 0 ∧ 6 ≤ opField 0x60000000#32 ∧
    (opField 0x30000001#32 = 3 ∧ field 0x30000001#32 27 0 ≠ 0) ∧ (opField 0x50000400#32 = 5 ∧ yField 0x50000400#32 ≠ 0) ∧
    opField 0x1FFFFFFF#32 = 1 ∧ (opField 0x30000000#32 = 3 ∧ field 0x30000000#32 27 0 = 0) := by decide

theorem witness_VerdictIsFormThenOperandChecks : decode 0xF0000000#32 = .error .reservedOpcode ∧
    decode 0x10200C03#32 = .ok (.wrcell 3 3 2) ∧ decode 0x10300C04#32 = .ok (.wrcell 4 3 3) ∧
    decode 0x20001000#32 = .ok (.rdcell 0 4) ∧ decode 0x30000000#32 = .ok .step ∧
    decode 0x40000C03#32 = .ok (.nbrs 3 3) ∧ decode 0x50000004#32 = .ok (.rdreg 4) ∧
    decode 0x50000005#32 = .ok (.rdreg 5) := by decide

theorem witness_StepRunsTheDecodedCommand :
    (sends State.reset [0x10200C01#32, 0x30000000#32]).inbox = .command 0x10200C01#32 :: [.command 0x30000000#32] ∧
    decode 0x10200C01#32 = .ok (.wrcell 1 3 2) ∧ (Instr.nbrs 3 0).wf = true := by decide

/-- The largest coordinate and the largest state of the 4×4 reference engine. -/
theorem witness_WrcellWritesOneCell :
    let s := live Config.reference v20gen0
    s.fault = false ∧ 3 < s.cfg.W ∧ 3 < s.cfg.H ∧ 2 < s.cfg.K := by decide

theorem witness_WritesCommuteAndTheLaterWins :
    let s := live Config.reference v20gen0
    s.Inv ∧ s.fault = false ∧ 3 < s.cfg.W ∧ 0 < s.cfg.H ∧ 2 < s.cfg.K ∧ 0 < s.cfg.W ∧ 3 < s.cfg.H ∧ 0 < s.cfg.K ∧
      ((3, 0) : Nat × Nat) ≠ (0, 3) := ⟨v20_inv, by decide⟩

theorem witness_RdcellAnswersTheFrontCell :
    let s := live Config.reference v20gen0
    s.Inv ∧ s.fault = false ∧ 3 < s.cfg.W ∧ 3 < s.cfg.H := ⟨v20_inv, by decide⟩

/-- The same coordinate, and another one. -/
theorem witness_ReadAfterWriteInOrder :
    let s := sends (live Config.reference v20gen0) [0x10200C03#32, 0x20000C03#32]
    let u := sends (live Config.reference v20gen0) [0x10200C03#32, 0x20000001#32]
    s.Inv ∧ u.Inv ∧ s.fault = false ∧ 3 < s.cfg.W ∧ 3 < s.cfg.H ∧ 2 < s.cfg.K ∧ 1 < s.cfg.W ∧ 0 < s.cfg.H ∧
      s.inbox = [.command (encode (.wrcell 3 3 2)), .command (encode (.rdcell 3 3))] ∧
      u.inbox = [.command (encode (.wrcell 3 3 2)), .command (encode (.rdcell 1 0))] :=
  ⟨inv_by_check (by decide), inv_by_check (by decide), by decide⟩

theorem witness_ReservedRegisterRaisesRegRange : State.reset.fault = false ∧ 5 ≤ 5 ∧ 5 ≤ 1023 := by decide

/-- The first column and the first row outside the grid. -/
theorem witness_OutsideCoordinateRaisesCoordRange :
    State.reset.fault = false ∧ (State.reset.cfg.W ≤ 4 ∨ State.reset.cfg.H ≤ 0) ∧
    (State.reset.cfg.W ≤ 0 ∨ State.reset.cfg.H ≤ 4) := by decide

/-- The first state outside the cycle, at the last coordinate of the grid. -/
theorem witness_OutsideStateRaisesStateRange :
    State.reset.fault = false ∧ 3 < State.reset.cfg.W ∧ 3 < State.reset.cfg.H ∧ State.reset.cfg.K ≤ 3 := by decide

theorem witness_NbrsAnswersMaskAndCount : State.reset.fault = false ∧ 3 < State.reset.cfg.W ∧
    0 < State.reset.cfg.H ∧ offsets[0]? = some (-1, -1) ∧ offsets[7]? = some (1, 1) := by decide

/-- The nine kinds of position of the 4×4 grid: four corners, four edges, the interior. -/
theorem witness_NbrsMaskByPosition :
    let s := State.reset
    s.fault = false ∧ 3 ≤ s.cfg.W ∧ 3 ≤ s.cfg.H ∧ s.cfg.W - 1 = 3 ∧ s.cfg.H - 1 = 3 ∧
    ∀ c ∈ ([(0, 0), (0, 3), (0, 1), (3, 0), (3, 3), (3, 2), (1, 0), (2, 3), (1, 1)] : List (Nat × Nat)),
      c.1 < s.cfg.W ∧ c.2 < s.cfg.H := by decide

/-- Both sizes at least 2, one column, one row, one cell. -/
theorem witness_NeighbourCountFormula : (3 < Config.reference.W ∧ 1 < Config.reference.H) ∧
    (2 ≤ grid22.W ∧ 2 ≤ grid22.H ∧ 1 < grid22.W) ∧
    (grid13.W = 1 ∧ 2 ≤ grid13.H ∧ 0 < grid13.W ∧ 2 < grid13.H) ∧
    (grid31.H = 1 ∧ 2 ≤ grid31.W ∧ 2 < grid31.W ∧ 0 < grid31.H) ∧ (grid11.W = 1 ∧ grid11.H = 1) := by decide

/-- The last coordinate of the grid, a neighbour of it, and the first column outside. -/
theorem witness_LocatorHasNoValueOutsideTheGrid :
    (3 < Config.reference.W ∧ 3 < Config.reference.H) ∧ neighbourAt Config.reference 3 3 (-1, 0) = some (2, 3) ∧
      (3, 3) ∈ allCoords Config.reference ∧ State.reset.cfg = Config.reference ∧ State.reset.fault = false ∧
      nbrsPayload Config.reference 4 0 = none := by decide

theorem witness_NeighboursAreTheAdjacentCells : 1023 < largest.W ∧ 0 < largest.H ∧ 0 < grid11.W ∧
    0 < grid11.H := by decide

/-- The last cell and the largest state, the first coordinate and the first state outside. -/
theorem witness_CellAccessMeetsItsRequirements :
    let s := live Config.reference v20gen0
    s.Inv ∧ 3 < s.cfg.W ∧ 3 < s.cfg.H ∧ 2 < s.cfg.K ∧ (s.cfg.W ≤ 4 ∨ s.cfg.H ≤ 0) ∧ (s.cfg.W ≤ 0 ∨ s.cfg.H ≤ 4) ∧
      (s.cfg.W ≤ 3 ∨ s.cfg.H ≤ 3 ∨ s.cfg.K ≤ 3) ∧ ((false, 2, 3) : Bool × Nat × Nat) ≠ (false, 3, 3) ∧
      ((true, 3, 3) : Bool × Nat × Nat) ≠ (false, 3, 3) ∧ coordKey 3 2 ≠ coordKey 3 3 := ⟨v20_inv, by decide⟩

/-- The first value outside the cycle, stored in the last cell. -/
theorem witness_StoredStateOutsideTheCycleHasNoBehaviour :
    let s := { State.resetOf grid22 with buf0 := [(coordKey 1 1, 3#8)] }
    s.fault = false ∧ 1 < s.cfg.W ∧ 1 < s.cfg.H ∧ s.cfg.K ≤ cellAt s.front 1 1 ∧
      scheduleStep [] s = some ⟨s, allCoords s.cfg⟩ := by decide

theorem witness_ConfigurationsOutsideTheRangesAreRefused :
    (∃ cfg, Config.build 4 1024 3 2 = some cfg) ∧ (Config.build 1024 1 256 15).isSome = true ∧
      Config.build 4 4 3 16 = none := ⟨⟨_, rfl⟩, by decide⟩

theorem witness_StepKeepsTheRange : Memory.within Config.reference (gridOf v20gen0) ∧ 3 < Config.reference.W ∧
    3 < Config.reference.H := by decide

theorem witness_SuccessorIsModularBijection : 2 < grid33.K ∧ 255 < largest.K ∧ grid33.K = 3 ∧ oneState.K = 1 := by
  decide

theorem witness_CountIsSetCardinality : Memory.within Config.reference (gridOf v20gen0) ∧
    3 < Config.reference.W ∧ 3 < Config.reference.H := by decide

/-- V20: the count at (1,0) is 3, above T, the count at (0,0) is 2, not above it; and another grid that agrees around
(0,0). -/
theorem witness_NextStateIsThresholdedAndLocal : 1 < Config.reference.W ∧ 0 < Config.reference.H ∧
    Config.reference.T < qualifying Config.reference (gridOf v20gen0) 1 0 ∧
    qualifying Config.reference (gridOf v20gen0) 0 0 ≤ Config.reference.T ∧
    cellAt (gridOf [[0, 1], [1, 2]]) 0 0 = cellAt (gridOf v20gen0) 0 0 ∧
    (∀ x' < 4, ∀ y' < 4, adjacent 0 0 x' y' = true →
      cellAt (gridOf [[0, 1], [1, 2]]) x' y' = cellAt (gridOf v20gen0) x' y') := by decide

theorem witness_StepComputesTheNextGeneration :
    let s := live Config.reference v20gen0
    s.Inv ∧ s.fault = false ∧ 3 < s.cfg.W ∧ 3 < s.cfg.H ∧ ∀ x < s.cfg.W, ∀ y < s.cfg.H, 4 ≠ coordKey x y :=
  ⟨v20_inv, by decide⟩

/-- V3b, V3d, and a grid in which the centre has no qualifying neighbour. -/
theorem witness_StableUnderNoMajority : Memory.within grid33 (gridOf [[2, 2, 2], [2, 2, 2], [2, 2, 2]]) ∧
    1 < grid33.W ∧ 1 < grid33.H ∧ 2 ≤ grid33.K ∧ oneState.K = 1 ∧ Memory.within oneState [] ∧
    qualifying grid33 (gridOf [[2, 2, 2], [2, 2, 2], [2, 2, 2]]) 1 1 = 0 ∧
    (∀ x' < 3, ∀ y' < 3, adjacent 1 1 x' y' = true →
      cellAt (gridOf [[2, 2, 2], [2, 2, 2], [2, 2, 2]]) x' y' = cellAt (gridOf [[2, 2, 2], [2, 2, 2], [2, 2, 2]]) 1 1) := by
  decide

/-- V19b, V15 and V3d. -/
theorem witness_StepThatChangesNoCellStillToggles :
    let a := live highThreshold [[1, 1, 1], [1, 0, 1], [1, 1, 1]]
    let b := live grid11 [[2]]
    let c := live oneState []
    (a.Inv ∧ a.fault = false ∧ 8 ≤ a.cfg.T) ∧ (b.Inv ∧ b.fault = false ∧ b.cfg.W = 1 ∧ b.cfg.H = 1) ∧
      (c.Inv ∧ c.fault = false ∧ c.cfg.K = 1) :=
  ⟨⟨inv_by_check (by decide), by decide⟩, ⟨inv_by_check (by decide), by decide⟩, ⟨inv_by_check (by decide), by decide⟩⟩

/-- The same grid in the two buffers, with different back buffers, and a schedule of two groups. -/
theorem witness_StepIsDeterminedByTheFrontGrid :
    let s := live grid22 [[0, 1], [1, 1]]
    let s' := { live1 grid22 [[0, 1], [1, 1]] with buf0 := gridOf [[2]] }
    s.Inv ∧ s'.Inv ∧ s.fault = false ∧ s'.fault = false ∧ s.cfg = s'.cfg ∧ sameCells s.cfg s.front s'.front ∧
      ∃ p u, scheduleStep [[(1, 1), (0, 0)], [(0, 1), (1, 0)]] s' = some p ∧ swapMicro p = some u :=
  ⟨inv_by_check (by decide), inv_by_check (by decide), rfl, rfl, rfl, fun _ _ _ _ => rfl, _, _, rfl, rfl⟩

theorem witness_RepeatedStepsIterateTheStepFunction :
    let s := sends (live Config.reference v20gen0) [0x30000000#32, 0x30000000#32, 0x30000000#32]
    s.Inv ∧ s.fault = false ∧ s.inbox = commandsOf ((runCommands 3).map encode) :=
  ⟨inv_by_check (by decide), by decide⟩

/-- A schedule with two lanes that finishes, and the order in which one lane works. -/
theorem witness_EveryScheduleEndsInTheAtomicStep :
    let s := live grid22 [[0, 1], [1, 1]]
    s.Inv ∧ s.fault = false ∧
      (∃ p, scheduleStep [[(0, 0), (1, 1)], [(1, 0)], [(0, 1)]] s = some p ∧ p.pending = []) ∧
      [(1, 1), (0, 1), (1, 0), (0, 0)].Perm (allCoords s.cfg) :=
  ⟨inv_by_check (by decide), rfl, ⟨_, rfl, by decide⟩, by decide⟩

/-- A live engine and a faulted one. -/
theorem witness_OnlyALiveEngineAcceptsAStep : (live grid22 [[0, 1], [1, 1]]).fault = false ∧ faulted.fault = true := by
  decide

theorem witness_StepInProgressKeepsTheSnapshotAndEnds :
    let s := live grid22 [[0, 1], [1, 1]]
    s.Inv ∧ (∃ p, scheduleStep [[(0, 0)], [(1, 1)]] s = some p ∧ (1, 0) ∈ p.pending) ∧
      ∃ p, scheduleStep [[(0, 0), (1, 1), (1, 0), (0, 1)]] s = some p ∧ p.pending = [] :=
  ⟨inv_by_check (by decide), ⟨_, rfl, by decide⟩, _, rfl, by decide⟩

/-- One word for each of the four causes. -/
theorem witness_FaultEntryIsPrecise :
    let s := sends State.reset [0x10100004#32]
    s.inbox = .command 0x10100004#32 :: [] ∧ s.fault = false ∧
    verdict s.cfg 0x10100004#32 = .viol .coordRange ∧ verdict s.cfg 0x00000000#32 = .viol .illegalCmd ∧
    verdict s.cfg 0x10300000#32 = .viol .stateRange ∧ verdict s.cfg 0x50000005#32 = .viol .regRange ∧
    (∃ t, step s = .next t ∧ t.fault = true) := ⟨rfl, rfl, by decide, by decide, by decide, by decide, _, rfl, rfl⟩

/-- One legal word of each command. -/
theorem witness_LegalCommandsNeverFault :
    let s := sends (live Config.reference v20gen0) [0x10200C03#32]
    s.Inv ∧ s.inbox = .command 0x10200C03#32 :: [] ∧ s.fault = false ∧
    verdict s.cfg 0x10200C03#32 = .legal (.wrcell 3 3 2) ∧ verdict s.cfg 0x20000C03#32 = .legal (.rdcell 3 3) ∧
    verdict s.cfg 0x30000000#32 = .legal .step ∧ verdict s.cfg 0x40000C03#32 = .legal (.nbrs 3 3) ∧
    verdict s.cfg 0x50000004#32 = .legal (.rdreg 4) :=
  ⟨inv_by_check (by decide), by decide⟩

/-- A legal RDREG, a legal STEP, a reserved register and an illegal word in the faulted state. -/
theorem witness_FaultedEngineOnlyReadsRegisters :
    let s := sends faulted [0x50000004#32]
    s.inbox = .command 0x50000004#32 :: [] ∧ s.fault = true ∧ verdict s.cfg 0x50000004#32 = .legal (.rdreg 4) ∧
    ∀ w ∈ [0x30000000#32, 0x50000005#32, 0x00000000#32], ∀ r, verdict s.cfg w ≠ .legal (.rdreg r) := by
  refine ⟨rfl, rfl, by decide, fun w hw r => ?_⟩
  have h : verdict Config.reference w = .legal .step ∨ ∃ c, verdict Config.reference w = .viol c := by
    fin_cases hw
    · exact .inl (by decide)
    · exact .inr ⟨.regRange, by decide⟩
    · exact .inr ⟨.illegalCmd, by decide⟩
  show verdict Config.reference w ≠ _
  rcases h with h | ⟨c, h⟩ <;> rw [h] <;> simp

theorem witness_OnlyResetLeavesTheFaultedState :
    (sends faulted [0x30000000#32, 0x50000000#32]).fault = true ∧
    (sends faulted [0x30000000#32, 0x50000000#32]).inbox = commandsOf [0x30000000#32, 0x50000000#32] := by decide

/-- A live engine that faults on its second word, and a faulted one. -/
theorem witness_AtMostOneFaultStatusBetweenResets :
    let s := sends State.reset [0x10200401#32, 0x10100004#32]
    let u := sends faulted [0x00000000#32]
    (s.inbox = commandsOf [0x10200401#32, 0x10100004#32] ∧ s.fault = false ∧
      ∃ t, runSteps 2 s = .next t ∧ t.fault = true) ∧
    (u.inbox = commandsOf [0x00000000#32] ∧ u.fault = true ∧ ∃ t, runSteps 1 u = .next t) :=
  ⟨⟨rfl, rfl, _, rfl, rfl⟩, rfl, rfl, _, rfl⟩

/-- A response of status 0, one of status 4 and one of status 7. -/
theorem witness_OneResponsePerCommand :
    (∃ t, step (sends State.reset [0x40000001#32]) = .next t) ∧
    (∃ t, step (sends State.reset [0x50000005#32]) = .next t ∧ t.fault = true) ∧
    (∃ t, step (sends faulted [0x30000000#32]) = .next t ∧ t.fault = true) :=
  ⟨⟨_, rfl⟩, ⟨_, rfl, rfl⟩, ⟨_, rfl, rfl⟩⟩

theorem witness_RangeInvariantIsKept :
    let s := sends (live Config.reference v20gen0) [0x30000000#32]
    s.Inv ∧ 3 < s.cfg.W ∧ 3 < s.cfg.H ∧ ∃ t, step s = .next t := ⟨inv_by_check (by decide), by decide, by decide, _, rfl⟩

/-- A state from which the host sends an illegal word, a STEP, and cuts a STEP off by a reset. -/
theorem witness_MachineNeverStops :
    (doing (live Config.reference v20gen0) [.command 0xFFFFFFFF#32, .reset, .resetDuring 0x30000000#32]).Inv :=
  inv_by_check (by decide)

theorem witness_SequenceIsTheLeftFold :
    let s := sends (live Config.reference v20gen0) [0x30000000#32, 0x20000401#32]
    s.Inv ∧ s.inbox = commandsOf [0x30000000#32, 0x20000401#32] := ⟨inv_by_check (by decide), by decide⟩

/-- A STEP changes SEL, and so does a reset when SEL is 1. -/
theorem witness_SelChangesOnlyByStepOrReset :
    (∃ t, step (sends State.reset [0x30000000#32]) = .next t ∧ t.sel ≠ (sends State.reset [0x30000000#32]).sel) ∧
    (∃ t, step (doing (live1 grid11 []) [.reset]) = .next t ∧ t.sel ≠ (doing (live1 grid11 []) [.reset]).sel) :=
  ⟨⟨_, rfl, by decide⟩, ⟨_, rfl, by decide⟩⟩

/-- A WRCELL changes a cell of the front buffer, a STEP one of the back buffer. -/
theorem witness_CellsChangeOnlyByWrcellOrStep :
    (∃ t, step (sends State.reset [0x10200C03#32]) = .next t ∧
      Memory.read (t.buf false) (coordKey 3 3) ≠ Memory.read (State.reset.buf false) (coordKey 3 3)) ∧
    (∃ t, step (sends (live grid22 [[0, 1], [1, 1]]) [0x30000000#32]) = .next t ∧
      Memory.read (t.buf true) (coordKey 1 1) ≠ Memory.read ((live grid22 [[0, 1], [1, 1]]).buf true) (coordKey 1 1)) :=
  ⟨⟨_, rfl, by decide⟩, ⟨_, rfl, by decide⟩⟩

theorem witness_ConfigurationNeverChanges : ∃ t, runSteps 1 (doing faulted [.reset]) = .next t := ⟨_, rfl⟩

/-- Two states that differ in the back buffer only. -/
theorem witness_BackBufferInfluencesNoResponse :
    (sends (live Config.reference v20gen0) [0x30000000#32, 0x20000401#32]).Inv ∧
    State.setBuf true (gridOf v20gen1) (live Config.reference v20gen0) ≠ live Config.reference v20gen0 :=
  ⟨inv_by_check (by decide), by decide⟩

theorem witness_ResetLeavesTheResetState :
    (doing faulted [.reset, .command 0x50000000#32]).inbox = .reset :: [.command 0x50000000#32] ∧
    3 < faulted.cfg.W ∧ 3 < faulted.cfg.H := by decide

/-- A command in flight, and a STEP in progress with a cell already written. -/
theorem witness_ResetAbandonsTheCommandInFlight :
    (doing faulted [.resetDuring 0x30000000#32]).inbox = .resetDuring 0x30000000#32 :: [] ∧
    ∃ p, scheduleStep [[(0, 0)]] (live grid22 [[0, 1], [1, 1]]) = some p ∧ p.arch.buf1 ≠ [] :=
  ⟨rfl, _, rfl, by decide⟩

theorem witness_IdleEngineKeepsItsState : (live Config.reference v20gen0).inbox = [] := rfl

/-- The seed of V11. -/
theorem witness_SeedEstablishesTheGrid :
    let g : Nat → Nat → Nat := fun x y => if x = 0 ∧ y = 0 then 0 else 1
    let s := sends (State.resetOf grid22) [0x10000000#32, 0x10100001#32, 0x10100400#32, 0x10100401#32]
    s.Inv ∧ s.fault = false ∧ (∀ x y, x < s.cfg.W → y < s.cfg.H → g x y < s.cfg.K) ∧
      s.inbox = commandsOf ((seedCommands s.cfg g).map encode) := by
  refine ⟨inv_by_check (by decide), rfl, fun x y _ _ => ?_, by decide⟩
  show (if x = 0 ∧ y = 0 then 0 else 1) < 3
  split <;> omega

theorem witness_DumpReadsOneGeneration :
    let s := sends (live grid22 [[0, 1], [1, 1]]) [0x20000000#32, 0x20000001#32, 0x20000400#32, 0x20000401#32]
    s.Inv ∧ s.fault = false ∧ s.inbox = commandsOf ((dumpCommands s.cfg).map encode) :=
  ⟨inv_by_check (by decide), by decide⟩

end Sys2Proof.Tests
end

section
/-! What an executed command and a run of steps can do, said once; then the statements about the configuration
(`spec/00_scope.md` R5 to R7). -/

namespace Sys2Proof.Machine

theorem violated_cfg (c : Cause) (s : State) : (violated c s).cfg = s.cfg := by
  obtain ⟨-, hv⟩ | ⟨-, hv⟩ := violated_cases c s <;> simp [hv]

/-- If a guarded command answers a next state, that is the state of a violation, the refusal of a faulted engine, or the
effect of the command on a live engine. -/
theorem perform_next {v : Option Cause} {f : State → Host.Outcome State Fault Refusal} {s t : State}
    (h : perform v f s = .next t) :
    (∃ c, t = violated c s) ∨ (s.fault = true ∧ t = refuse s) ∨ (s.fault = false ∧ f s = .next t) := by
  obtain ⟨c, -, hp⟩ | ⟨-, hf, hp⟩ | ⟨-, hf, hp⟩ := perform_cases v f s <;> rw [hp] at h
  · exact .inl ⟨c, (Host.Outcome.next.inj h).symm⟩
  · exact .inr (.inl ⟨hf, (Host.Outcome.next.inj h).symm⟩)
  · exact .inr (.inr ⟨hf, h⟩)

/-- Everything an executed command can do: a violation, the refusal of a faulted engine, a response alone, the write of one
front cell (R120), or a new generation in the back buffer and the swap (R105). -/
theorem exec_next {i : Instr} {s t : State} (h : exec i s = .next t) :
    (∃ c, t = violated c s) ∨ (s.fault = true ∧ t = refuse s) ∨ (∃ p, t = respond .ok p s) ∨
      (∃ x y v, i = .wrcell x y v ∧ s.fault = false ∧ (x < s.cfg.W ∧ y < s.cfg.H ∧ v < s.cfg.K) ∧
        t = respond .ok 0#28 (storeCell s.sel x y v s)) ∨
      (i = .step ∧ s.fault = false ∧ statesInRange s.cfg s.front = true ∧
        t = respond .ok 0#28 (toggleSel (s.setBuf (!s.sel) (stepGrid s.cfg s.front)))) := by
  cases i with
  | wrcell x y v =>
    refine (perform_next h).imp_right (Or.imp_right fun ⟨hf, he⟩ => ?_)
    obtain ⟨hr, ht⟩ := writeFront_next he
    exact .inr (.inl ⟨x, y, v, rfl, hf, hr, ht⟩)
  | rdcell x y =>
    refine (perform_next h).imp_right (Or.imp_right fun ⟨_, he⟩ => ?_)
    exact .inl ⟨_, (readFront_next he).2⟩
  | step =>
    refine (perform_next (v := none) (f := generation) h).imp_right (Or.imp_right fun ⟨hf, he⟩ => ?_)
    obtain ⟨hr, ht⟩ := generation_next he
    exact .inr (.inr ⟨rfl, hf, hr, ht⟩)
  | nbrs x y =>
    refine (perform_next h).imp_right (Or.imp_right fun ⟨_, he⟩ => ?_)
    obtain ⟨p, -, ht⟩ := answerNbrs_next he
    exact .inl ⟨p, ht⟩
  | rdreg r =>
    simp only [exec, execRdreg] at h
    split at h
    next p _ => exact .inr (.inr (.inl ⟨p, (Host.Outcome.next.inj h).symm⟩))
    next => exact .inl ⟨.regRange, (Host.Outcome.next.inj h).symm⟩

theorem exec_keeps_cfg {i : Instr} {s t : State} (h : exec i s = .next t) : t.cfg = s.cfg := by
  obtain ⟨c, rfl⟩ | ⟨-, rfl⟩ | ⟨p, rfl⟩ | ⟨x, y, v, -, -, -, rfl⟩ | ⟨-, -, -, rfl⟩ := exec_next h
  · exact violated_cfg c s
  all_goals simp

theorem runWord_keeps_cfg {w : Word} {s t : State} (h : runWord w s = .next t) : t.cfg = s.cfg := by
  obtain ⟨i, -, hw⟩ | ⟨r, -, hw⟩ := runWord_cases w s <;> rw [hw] at h
  · exact exec_keeps_cfg h
  · obtain rfl := Host.Outcome.next.inj h
    exact violated_cfg _ s

theorem step_keeps_cfg {s t : State} (h : step s = .next t) : t.cfg = s.cfg := by
  obtain ⟨-, hs⟩ | ⟨w, rest, -, hs⟩ | ⟨e, rest, -, -, hs⟩ := step_cases s <;> rw [hs] at h
  · obtain rfl := Host.Outcome.next.inj h
    rfl
  · exact (runWord_keeps_cfg h :)
  · obtain rfl := Host.Outcome.next.inj h
    rfl

/-- A run of `n + 1` steps that answers a next state is one step and then a run of `n` steps. -/
theorem runSteps_succ_next {n : Nat} {s t : State} :
    runSteps (n + 1) s = .next t ↔ ∃ u, step s = .next u ∧ runSteps n u = .next t := by
  constructor
  · intro h
    cases hs : step s with
    | next u => exact ⟨u, rfl, runSteps_next hs ▸ h⟩
    | fault r => simp [runSteps, Host.Core.run, Sys2Proof.core, hs] at h
    | refused r => simp [runSteps, Host.Core.run, Sys2Proof.core, hs] at h
  · rintro ⟨u, hs, hrun⟩
    rw [runSteps_next hs, hrun]

/-- A reflexive and transitive relation that holds across every step holds across every run. -/
theorem runSteps_relates {R : State → State → Prop} (hrefl : ∀ s, R s s)
    (htrans : ∀ {s u t}, R s u → R u t → R s t) (hstep : ∀ {s t}, step s = .next t → R s t)
    {n : Nat} {s t : State} (h : runSteps n s = .next t) : R s t := by
  induction n generalizing s with
  | zero =>
    obtain rfl := Host.Outcome.next.inj h
    exact hrefl s
  | succ n ih =>
    obtain ⟨u, hs, hrun⟩ := runSteps_succ_next.1 h
    exact htrans (hstep hs) (ih hrun)

/-- Settles O49: no step changes the configuration, hence no run does. -/
theorem configurationNeverChanges : Obligations.ConfigurationNeverChanges := by
  intro n s t h
  exact runSteps_relates (R := fun s t => t.cfg = s.cfg) (fun _ => rfl) (fun hsu hut => hut.trans hsu)
    step_keeps_cfg h

/-- Everything `Config.build` can do: the record of the four values, all in their ranges, or nothing. -/
theorem build_eq_some {W H K T : Nat} {cfg : Config} :
    Config.build W H K T = some cfg ↔
      ((1 ≤ W ∧ W ≤ 1024) ∧ (1 ≤ H ∧ H ≤ 1024) ∧ (1 ≤ K ∧ K ≤ 256) ∧ T ≤ 15) ∧
        cfg.W = W ∧ cfg.H = H ∧ cfg.K = K ∧ cfg.T = T := by
  unfold Config.build
  split
  next hr => cases cfg; simp [hr, eq_comm]
  next hr => simp [hr]

/-- Settles O24: the ranges that `Config.build` checks are those of R5 to R7. -/
theorem configurationsOutsideTheRangesAreRefused : Obligations.ConfigurationsOutsideTheRangesAreRefused := by
  intro W H K T
  refine ⟨fun cfg hb => (build_eq_some.1 hb).2, ?_⟩
  rw [Option.isSome_iff_exists]
  constructor
  · rintro ⟨cfg, hb⟩
    obtain ⟨⟨hW, hH, hK, hT⟩, -⟩ := build_eq_some.1 hb
    exact ⟨hW.1, hW.2, hH.1, hH.2, hK.1, hK.2, hT⟩
  · rintro ⟨hW, hW', hH, hH', hK, hK', hT⟩
    exact ⟨⟨W, H, K, T, ⟨hW, hW'⟩, ⟨hH, hH'⟩, ⟨hK, hK'⟩, hT⟩,
      build_eq_some.2 ⟨⟨⟨hW, hW'⟩, ⟨hH, hH'⟩, ⟨hK, hK'⟩, hT⟩, rfl, rfl, rfl, rfl⟩⟩

end Sys2Proof.Machine
end

section
/-! The state of the engine (`spec/10_state.md`): what every step keeps (R22, R24), what reset leaves (R32), the fields of
STATUS (R27), when SEL changes (R23), and that no response depends on the back buffer (R30). -/

namespace Sys2Proof.Machine

/-! ## The invariant across the operations -/

/-- The machine goes on, in a state with the invariant. -/
def CompletesInv (o : Host.Outcome State Fault Refusal) : Prop := ∃ t, o = .next t ∧ t.Inv

theorem inv_resetOf (cfg : Config) : (State.resetOf cfg).Inv :=
  ⟨wf_nil, wf_nil, by simp [State.resetOf], by simp [State.resetOf], by simp [State.resetOf]⟩

/-- Reset leaves the reset state of the configuration, and what is the host's. -/
theorem hostReset_eq (s : State) :
    hostReset s = { State.resetOf s.cfg with inbox := s.inbox, responses := s.responses } := rfl

theorem inv_hostReset (s : State) : (hostReset s).Inv := (inv_resetOf s.cfg).withLists s.inbox s.responses

theorem State.Inv.respond {s : State} (h : s.Inv) (st : Status) (p : Payload) : (respond st p s).Inv :=
  h.withLists s.inbox _

theorem State.Inv.toggleSel {s : State} (h : s.Inv) : (toggleSel s).Inv :=
  ⟨h.wf0, h.wf1, h.within0, h.within1, h.cause_iff⟩

theorem State.Inv.setBuf {s : State} (h : s.Inv) (b : Bool) {m : Memory} (hwf : Memory.wf m)
    (hin : Memory.within s.cfg m) : (s.setBuf b m).Inv := by
  cases b
  · exact ⟨hwf, h.wf1, hin, h.within1, h.cause_iff⟩
  · exact ⟨h.wf0, hwf, h.within0, hin, h.cause_iff⟩

/-- A cell write within the requirements of R41 keeps the invariant. -/
theorem State.Inv.storeCell {s : State} (h : s.Inv) (b : Bool) {x y v : Nat} (hx : x < s.cfg.W) (hy : y < s.cfg.H)
    (hv : v < s.cfg.K) : (storeCell b x y v s).Inv := by
  have hx' : x < 1024 := Nat.lt_of_lt_of_le hx s.cfg.W_range.2
  refine h.setBuf b (wf_write (h.wf_buf b) _ _) (within_write (h.within_buf b) ?_ ?_ ?_)
  · rwa [coordKey_mod hx']
  · rwa [coordKey_div hx']
  · rw [BitVec.toNat_ofNat]
    exact Nat.lt_of_le_of_lt (Nat.mod_le v _) hv

/-- Fault entry with a cause that is one keeps the invariant (R24, R137), and so does the refusal (R138). -/
theorem State.Inv.violated {s : State} (h : s.Inv) {c : Cause} (hc : c ≠ .none) : (violated c s).Inv := by
  obtain ⟨-, hv⟩ | ⟨-, hv⟩ := violated_cases c s <;> rw [hv]
  · exact h.respond _ _
  · exact ⟨h.wf0, h.wf1, h.within0, h.within1, by simp [hc]⟩

/-! ## One step from a state with the invariant -/

theorem coordViolation_ne_none (cfg : Config) (x y : Nat) : coordViolation cfg x y ≠ some .none := fun h =>
  Cause.noConfusion (coordViolation_some.1 h).2

theorem wrcellViolation_ne_none (cfg : Config) (x y v : Nat) : wrcellViolation cfg x y v ≠ some .none := by
  unfold wrcellViolation
  split
  next c hc => exact hc ▸ coordViolation_ne_none cfg x y
  next => split <;> simp

/-- A guarded command completes with the invariant if its violations have a cause and its own effect does. -/
theorem perform_completesInv {v : Option Cause} {f : State → Host.Outcome State Fault Refusal} {s : State} (h : s.Inv)
    (hv : v ≠ some .none) (hf : v = none → CompletesInv (f s)) : CompletesInv (perform v f s) := by
  obtain ⟨c, rfl, hp⟩ | ⟨-, -, hp⟩ | ⟨hnone, -, hp⟩ := perform_cases v f s <;> rw [hp]
  · exact ⟨_, rfl, h.violated (by simpa using hv)⟩
  · exact ⟨_, rfl, h.respond _ _⟩
  · exact hf hnone

/-- A STEP from a front buffer in range completes (R105). -/
theorem generation_of_range {s : State} (h : statesInRange s.cfg s.front = true) :
    generation s = .next (respond .ok 0#28 (toggleSel (s.setBuf (!s.sel) (stepGrid s.cfg s.front)))) := by
  rw [generation, if_pos h]

theorem generation_completesInv {s : State} (h : s.Inv) : CompletesInv (generation s) := by
  have hfront : Memory.within s.cfg s.front := h.within_buf s.sel
  exact ⟨_, generation_of_range (statesInRange_of_within hfront), ((h.setBuf _ (wf_stepGrid _ _) (within_stepGrid hfront)).toggleSel).respond _ _⟩

theorem exec_completesInv (i : Instr) {s : State} (h : s.Inv) : CompletesInv (exec i s) := by
  cases i with
  | wrcell x y v =>
    refine perform_completesInv h (wrcellViolation_ne_none _ _ _ _) fun hnone => ?_
    obtain ⟨hx, hy, hv⟩ := wrcellViolation_none.1 hnone
    exact ⟨_, writeFront_of_range hx hy hv, (h.storeCell _ hx hy hv).respond _ _⟩
  | rdcell x y =>
    refine perform_completesInv h (coordViolation_ne_none _ _ _) fun hnone => ?_
    obtain ⟨hx, hy⟩ := coordViolation_none.1 hnone
    exact ⟨_, readFront_of_range hx hy (cellAt_lt (h.within_buf s.sel) x y), h.respond _ _⟩
  | step => exact perform_completesInv h (Option.some_ne_none _).symm fun _ => generation_completesInv h
  | nbrs x y =>
    refine perform_completesInv h (coordViolation_ne_none _ _ _) fun hnone => ?_
    obtain ⟨hx, hy⟩ := coordViolation_none.1 hnone
    exact ⟨_, answerNbrs_of_payload (nbrsPayload_of_grid hx hy), h.respond _ _⟩
  | rdreg r =>
    simp only [exec, execRdreg]
    split
    next => exact ⟨_, rfl, h.respond _ _⟩
    next => exact ⟨_, rfl, h.violated (by simp)⟩

theorem runWord_completesInv (w : Word) {s : State} (h : s.Inv) : CompletesInv (runWord w s) := by
  obtain ⟨i, -, hw⟩ | ⟨r, -, hw⟩ := runWord_cases w s <;> rw [hw]
  · exact exec_completesInv i h
  · exact ⟨_, rfl, h.violated (by simp)⟩

/-- Every step from a state with the invariant completes in a state with the invariant (R22, R130). -/
theorem step_completesInv {s : State} (h : s.Inv) : CompletesInv (step s) := by
  obtain ⟨-, hs⟩ | ⟨w, rest, -, hs⟩ | ⟨e, rest, -, -, hs⟩ := step_cases s <;> rw [hs]
  · exact ⟨s, rfl, h⟩
  · exact runWord_completesInv w (h.withLists rest s.responses)
  · exact ⟨_, rfl, inv_hostReset _⟩

theorem step_keeps_inv {s t : State} (h : s.Inv) (hs : step s = .next t) : t.Inv := by
  obtain ⟨u, hu, hinv⟩ := step_completesInv h
  obtain rfl := Host.Outcome.next.inj (hs.symm.trans hu)
  exact hinv

/-- In a state with the invariant a cell of the grid can be read, in either buffer (R41). -/
theorem State.Inv.cellRead_eq {s : State} (h : s.Inv) (b : Bool) {x y : Nat} (hx : x < s.cfg.W) (hy : y < s.cfg.H) :
    cellRead b x y s = some (cellAt (s.buf b) x y) :=
  cellRead_eq_some.2 ⟨⟨hx, hy, cellAt_lt (h.within_buf b) x y⟩, rfl⟩

/-- Settles O43: the invariant holds at reset and every step keeps it, so every cell reads as a state of the cycle. -/
theorem rangeInvariantIsKept : Obligations.RangeInvariantIsKept :=
  ⟨inv_resetOf, fun _ _ => step_keeps_inv, fun _ h b x y hx hy =>
    ⟨h.cellRead_eq b hx hy, cellAt_lt (h.within_buf b) x y⟩⟩

/-- Settles O44: `inv_resetOf` at the reference configuration. -/
theorem resetStateHasTheInvariant : Obligations.ResetStateHasTheInvariant := inv_resetOf Config.reference

/-! ## The STATUS register -/

theorem Cause.code_le (c : Cause) : c.code.toNat ≤ 4 := by cases c <;> decide

/-- The number that STATUS reads as (R27). -/
theorem statusRegister_toNat (s : State) :
    (statusRegister s).toNat = s.sel.toNat + 2 * s.fault.toNat + 4 * s.cause.code.toNat := by
  have hlow : (BitVec.ofBool s.fault ++ BitVec.ofBool s.sel).toNat = s.sel.toNat + 2 * s.fault.toNat := by
    cases s.fault <;> cases s.sel <;> rfl
  have hcause := s.cause.code.isLt
  have hsel := s.sel.toNat_le
  have hfault := s.fault.toNat_le
  rw [statusRegister, BitVec.toNat_setWidth, BitVec.toNat_append, ← Nat.shiftLeft_add_eq_or_of_lt (BitVec.isLt _),
    hlow, Nat.shiftLeft_eq]
  omega

/-- RDREG of a defined register answers with its value, faulted or not (R122). -/
theorem exec_rdreg {r : Nat} {p : Payload} {s : State} (h : readRegister r s = some p) :
    exec (.rdreg r) s = .next (respond .ok p s) := by
  simp only [exec, execRdreg, h]

/-- Settles O13: the fields are the digits of the number that STATUS reads as. -/
theorem statusRegisterFields : Obligations.StatusRegisterFields := by
  intro s
  have hsel := s.sel.toNat_le
  have hfault := s.fault.toNat_le
  have hcause := s.cause.code_le
  refine ⟨_, exec_rdreg rfl, ?_⟩
  simp only [responseWord_ok, statusRegister_toNat, statusOf, field, BitVec.toNat_ofNat]
  omega

/-! ## Reset -/

theorem statusRegister_hostReset (s : State) : statusRegister (hostReset s) = 0#28 := by
  apply BitVec.eq_of_toNat_eq
  simp [statusRegister_toNat, Cause.code]

/-- Settles O51: the reset state of the configuration with the host's lists, and what its buffers and registers read. -/
theorem resetLeavesTheResetState : Obligations.ResetLeavesTheResetState := by
  intro s rest hin
  refine ⟨_, step_reset rfl hin, rfl, rfl, rfl, fun b a => ?_, fun b x y hx hy => ?_, rfl, rfl, rfl,
    hostReset_eq _, congrArg some (statusRegister_hostReset _), rfl, rfl, rfl, rfl⟩
  · simp [unlisted]
  · rw [(inv_hostReset _).cellRead_eq b hx hy]
    simp [cellAt, unlisted]

/-! ## Changes of SEL -/

/-- The word of STEP is the only one of its form (R63). -/
theorem decode_eq_step {w : Word} (h : decode w = .ok .step) : w = 0x30000000#32 := by
  have hfields : opField w = 3 ∧ field w 27 0 = 0 := by
    unfold decode at h
    split at h
    · cases h
    · split at h <;> cases h
    next hop =>
      split at h
      next hrest => exact ⟨hop, hrest⟩
      · cases h
    · split at h <;> cases h
    · split at h <;> cases h
    · cases h
  obtain ⟨hop, hrest⟩ := hfields
  apply BitVec.eq_of_toNat_eq
  unfold opField at hop
  unfold field at hop hrest
  rw [BitVec.toNat_ofNat]
  omega

@[simp] theorem violated_sel (c : Cause) (s : State) : (violated c s).sel = s.sel := by
  obtain ⟨-, hv⟩ | ⟨-, hv⟩ := violated_cases c s <;> simp [hv]

/-- A command keeps SEL, or it is the STEP of a live engine and toggles it (R23). -/
theorem exec_sel {i : Instr} {s t : State} (h : exec i s = .next t) :
    t.sel = s.sel ∨ (i = .step ∧ s.fault = false ∧ t.sel = !s.sel) := by
  obtain ⟨c, rfl⟩ | ⟨-, rfl⟩ | ⟨p, rfl⟩ | ⟨x, y, v, -, -, -, rfl⟩ | ⟨hi, hf, -, rfl⟩ := exec_next h
  case inr.inr.inr.inr => exact .inr ⟨hi, hf, by simp⟩
  all_goals exact .inl (by simp)

/-- Settles O47: the cases of one step, of which two can change SEL. -/
theorem selChangesOnlyByStepOrReset : Obligations.SelChangesOnlyByStepOrReset := by
  intro s t h hne
  obtain ⟨-, hs⟩ | ⟨w, rest, hin, hs⟩ | ⟨e, rest, he, hin, hs⟩ := step_cases s <;> rw [hs] at h
  · obtain rfl := Host.Outcome.next.inj h
    exact absurd rfl hne
  · left
    obtain ⟨i, hi, hw⟩ | ⟨r, -, hw⟩ := runWord_cases w { s with inbox := rest } <;> rw [hw] at h
    · obtain hkept | ⟨rfl, hlive, htoggled⟩ := exec_sel h
      · exact absurd hkept hne
      · exact ⟨rest, decode_eq_step hi ▸ hin, hlive, htoggled⟩
    · obtain rfl := Host.Outcome.next.inj h
      exact absurd (violated_sel _ _) hne
  · obtain rfl := Host.Outcome.next.inj h
    exact .inr ⟨e, rest, hin, he, rfl⟩

/-! ## The back buffer -/

/-- With nothing to do the engine keeps its state (R143). -/
theorem step_idle {s : State} (h : s.inbox = []) : step s = .next s := by
  rw [step, nextEvent_eq_none.2 h]

/-- The two states are equal in everything but the back buffer (R30). -/
structure SameButBack (s s' : State) : Prop where
  cfg : s'.cfg = s.cfg
  sel : s'.sel = s.sel
  front : s'.front = s.front
  fault : s'.fault = s.fault
  cause : s'.cause = s.cause
  inbox : s'.inbox = s.inbox
  responses : s'.responses = s.responses

/-- Where the first outcome goes on, the second goes on too, in a state that differs in the back buffer at most. -/
def Follows (o o' : Host.Outcome State Fault Refusal) : Prop :=
  ∀ t, o = .next t → ∃ t', o' = .next t' ∧ SameButBack t t'

theorem follows_next {s s' : State} (h : SameButBack s s') : Follows (.next s) (.next s') := by
  rintro _ ⟨⟩
  exact ⟨s', rfl, h⟩

theorem sameButBack_setBuf (s : State) (m : Memory) : SameButBack s (s.setBuf (!s.sel) m) := by
  constructor <;> simp

namespace SameButBack

variable {s s' : State}

theorem respond (h : SameButBack s s') (st : Status) (p : Payload) :
    SameButBack (respond st p s) (respond st p s') :=
  ⟨h.cfg, h.sel, h.front, h.fault, h.cause, h.inbox, by simp [h.responses]⟩

theorem violated (h : SameButBack s s') (c : Cause) : SameButBack (violated c s) (violated c s') := by
  have hraise : SameButBack (raiseFault c s) (raiseFault c s') :=
    ⟨h.cfg, h.sel, h.front, rfl, rfl, h.inbox, by simp [h.responses]⟩
  unfold Machine.violated
  rw [h.fault]
  split
  · exact h.respond _ _
  · exact hraise

theorem hostReset (h : SameButBack s s') : SameButBack (hostReset s) (hostReset s') :=
  ⟨h.cfg, rfl, rfl, rfl, rfl, h.inbox, h.responses⟩

theorem withInbox (h : SameButBack s s') (rest : List HostEvent) :
    SameButBack { s with inbox := rest } { s' with inbox := rest } :=
  ⟨h.cfg, h.sel, h.front, h.fault, h.cause, rfl, h.responses⟩

/-- WRCELL writes the front buffer from the front buffer. -/
theorem storeCell (h : SameButBack s s') (x y v : Nat) :
    SameButBack (storeCell s.sel x y v s) (storeCell s'.sel x y v s') := by
  constructor
  case front => simpa [front_eq] using congrArg (Memory.write · _ _) h.front
  all_goals simp [h.cfg, h.sel, h.fault, h.cause, h.inbox, h.responses]

/-- STEP overwrites the whole back buffer before it becomes the front buffer. -/
theorem nextGeneration (h : SameButBack s s') :
    SameButBack (toggleSel (s.setBuf (!s.sel) (stepGrid s.cfg s.front)))
      (toggleSel (s'.setBuf (!s'.sel) (stepGrid s'.cfg s'.front))) := by
  constructor
  case front => simp only [toggleSel_front, setBuf_not_sel_back, h.cfg, h.front]
  all_goals simp [h.cfg, h.sel, h.fault, h.cause, h.inbox, h.responses]

theorem readRegister_eq (h : SameButBack s s') (r : Nat) : readRegister r s' = readRegister r s := by
  unfold readRegister statusRegister
  rw [h.cfg, h.sel, h.fault, h.cause]

/-- A guarded command follows if its own effect does: the operand check and the faulted state are the same. -/
theorem perform_follows (h : SameButBack s s') (v : Option Cause) {f : State → Host.Outcome State Fault Refusal}
    (hf : Follows (f s) (f s')) : Follows (perform v f s) (perform v f s') := by
  unfold perform
  cases v with
  | some c => exact follows_next (h.violated c)
  | none =>
    simp only [h.fault]
    split
    · exact follows_next (h.respond _ _)
    · exact hf

theorem writeFront_follows (h : SameButBack s s') (x y v : Nat) :
    Follows (writeFront x y v s) (writeFront x y v s') := by
  intro t ht
  obtain ⟨hr, rfl⟩ := writeFront_next ht
  rw [← h.cfg] at hr
  obtain ⟨hx, hy, hv⟩ := hr
  exact ⟨_, writeFront_of_range hx hy hv, (h.storeCell x y v).respond _ _⟩

theorem readFront_follows (h : SameButBack s s') (x y : Nat) : Follows (readFront x y s) (readFront x y s') := by
  intro t ht
  obtain ⟨hr, rfl⟩ := readFront_next ht
  rw [← h.cfg, ← h.front] at hr
  obtain ⟨hx, hy, hv⟩ := hr
  exact ⟨_, readFront_of_range hx hy hv, h.front ▸ h.respond _ _⟩

theorem answerNbrs_follows (h : SameButBack s s') (x y : Nat) : Follows (answerNbrs x y s) (answerNbrs x y s') := by
  intro t ht
  obtain ⟨p, hp, rfl⟩ := answerNbrs_next ht
  exact ⟨_, answerNbrs_of_payload (h.cfg ▸ hp), h.respond _ _⟩

theorem generation_follows (h : SameButBack s s') : Follows (generation s) (generation s') := by
  intro t ht
  obtain ⟨hr, rfl⟩ := generation_next ht
  rw [← h.cfg, ← h.front] at hr
  exact ⟨_, generation_of_range hr, h.nextGeneration.respond _ _⟩

theorem exec_follows (h : SameButBack s s') (i : Instr) : Follows (exec i s) (exec i s') := by
  cases i with
  | wrcell x y v =>
    simp only [exec, execWrcell, h.cfg]
    exact h.perform_follows _ (h.writeFront_follows x y v)
  | rdcell x y =>
    simp only [exec, execRdcell, h.cfg]
    exact h.perform_follows _ (h.readFront_follows x y)
  | step => exact h.perform_follows none h.generation_follows
  | nbrs x y =>
    simp only [exec, execNbrs, h.cfg]
    exact h.perform_follows _ (h.answerNbrs_follows x y)
  | rdreg r =>
    simp only [exec, execRdreg, h.readRegister_eq r]
    split
    next p _ => exact follows_next (h.respond .ok p)
    next => exact follows_next (h.violated .regRange)

theorem runWord_follows (h : SameButBack s s') (w : Word) : Follows (runWord w s) (runWord w s') := by
  unfold runWord
  split
  next i _ => exact h.exec_follows i
  next => exact follows_next (h.violated .illegalCmd)

/-- One step of the simulation (R30). -/
theorem step_follows (h : SameButBack s s') : Follows (step s) (step s') := by
  obtain ⟨hin, hs⟩ | ⟨w, rest, hin, hs⟩ | ⟨e, rest, he, hin, hs⟩ := step_cases s <;> rw [hs]
  · rw [step_idle (h.inbox.trans hin)]
    exact follows_next h
  · rw [step_command (h.inbox.trans hin)]
    exact (h.withInbox rest).runWord_follows w
  · rw [step_reset he (h.inbox.trans hin)]
    exact follows_next (h.withInbox rest).hostReset

/-- From states that differ in the back buffer only, the first with the invariant, every run completes on both, in states
that differ in the back buffer only. -/
theorem runSteps_complete (h : SameButBack s s') (hinv : s.Inv) (n : Nat) :
    ∃ t t', runSteps n s = .next t ∧ runSteps n s' = .next t' ∧ SameButBack t t' := by
  induction n generalizing s s' with
  | zero => exact ⟨s, s', rfl, rfl, h⟩
  | succ n ih =>
    obtain ⟨u, hu, hinvu⟩ := step_completesInv hinv
    obtain ⟨u', hu', hsame⟩ := h.step_follows u hu
    rw [runSteps_next hu, runSteps_next hu']
    exact ih hsame hinvu

end SameButBack

/-- Settles O50: the run from the first state simulates the run from the other, step by step. -/
theorem backBufferInfluencesNoResponse : Obligations.BackBufferInfluencesNoResponse := by
  intro n s m hinv
  obtain ⟨t, t', ht, ht', hsame⟩ := (sameButBack_setBuf s m).runSteps_complete hinv n
  exact ⟨t, t', ht, ht', hsame.responses.symm, hsame.front.symm, hsame.sel.symm, hsame.fault.symm, hsame.cause.symm⟩

end Sys2Proof.Machine
end

section
/-! What the decoder accepts, the encoder's inverse and the step that takes an encoded command (`spec/30_encoding.md` R63,
R74); then the statements about the memory model (`spec/20_memory.md` R41, R42, R49). -/

namespace Sys2Proof

/-! ## The decoder -/

/-- A form with a must-be-zero check is accepted when the check holds, as its command (R64). -/
theorem checked_ok {p : Prop} [Decidable p] {i j : Instr} {r : DecodeReject}
    (h : (if p then .ok j else .error r) = Except.ok i) : p ∧ i = j := by
  split at h
  next hp => exact ⟨hp, (Except.ok.inj h).symm⟩
  next => cases h

/-- Everything the decoder can accept: one form per command, with the fields of the word as its operands (R63). -/
theorem decode_ok {w : Word} {i : Instr} (h : decode w = .ok i) :
    (opField w = 1 ∧ i = .wrcell (xField w) (yField w) (sField w)) ∨
      (opField w = 2 ∧ sField w = 0 ∧ i = .rdcell (xField w) (yField w)) ∨
      (opField w = 3 ∧ field w 27 0 = 0 ∧ i = .step) ∨
      (opField w = 4 ∧ sField w = 0 ∧ i = .nbrs (xField w) (yField w)) ∨
      (opField w = 5 ∧ (sField w = 0 ∧ yField w = 0) ∧ i = .rdreg (xField w)) := by
  unfold decode at h
  split at h
  next hop => exact .inl ⟨hop, (Except.ok.inj h).symm⟩
  next hop => exact .inr (.inl ⟨hop, checked_ok h⟩)
  next hop => exact .inr (.inr (.inl ⟨hop, checked_ok h⟩))
  next hop => exact .inr (.inr (.inr (.inl ⟨hop, checked_ok h⟩)))
  next hop => exact .inr (.inr (.inr (.inr ⟨hop, checked_ok h⟩)))
  next => cases h

/-- The operands of a decoded command are fields, so they fit their fields. -/
theorem wf_of_decode {w : Word} {i : Instr} (h : decode w = .ok i) : i.wf = true := by
  have hx := fitsTen_iff.2 (xField_lt w)
  have hy := fitsTen_iff.2 (yField_lt w)
  have hs := fitsEight_iff.2 (sField_lt w)
  obtain ⟨-, rfl⟩ | ⟨-, -, rfl⟩ | ⟨-, -, rfl⟩ | ⟨-, -, rfl⟩ | ⟨-, -, rfl⟩ := decode_ok h <;>
    simp [Instr.wf, hx, hy, hs]

/-- A well-formed command is what its word decodes to (R64). -/
theorem decode_encode {i : Instr} (h : i.wf = true) : decode (encode i) = .ok i := by
  cases i with
  | wrcell x y v =>
    simp only [Instr.wf, Bool.and_eq_true, fitsTen_iff, fitsEight_iff] at h
    obtain ⟨⟨hx, hy⟩, hv⟩ := h
    simp [decode, encode, opField_pack, sField_pack, yField_pack, xField_pack, hx, hy, hv]
  | rdcell x y =>
    simp only [Instr.wf, Bool.and_eq_true, fitsTen_iff] at h
    obtain ⟨hx, hy⟩ := h
    simp [decode, encode, opField_pack, sField_pack, yField_pack, xField_pack, hx, hy]
  | step => decide
  | nbrs x y =>
    simp only [Instr.wf, Bool.and_eq_true, fitsTen_iff] at h
    obtain ⟨hx, hy⟩ := h
    simp [decode, encode, opField_pack, sField_pack, yField_pack, xField_pack, hx, hy]
  | rdreg r =>
    simp only [Instr.wf, fitsTen_iff] at h
    simp [decode, encode, opField_pack, sField_pack, yField_pack, xField_pack, h]

/-- A word of the table that is a command word is that word. -/
theorem tableWord_toNat (w : Word) : tableWord 32 w.toNat = w := by
  rw [tableWord, Nat.mod_eq_of_lt w.isLt, BitVec.ofNat_toNat, BitVec.setWidth_eq]

namespace Machine

/-! ## The step that takes a command -/

/-- A word that has the form of a command is executed as that command. -/
theorem runWord_of_decode {w : Word} {i : Instr} (h : decode w = .ok i) (s : State) : runWord w s = exec i s := by
  rw [runWord, h]

/-- A step that takes the word of a well-formed command executes that command. -/
theorem step_encode {s : State} {i : Instr} {rest : List HostEvent} (hi : i.wf = true)
    (h : s.inbox = .command (encode i) :: rest) : step s = exec i { s with inbox := rest } := by
  rw [step_command h, runWord_of_decode (decode_encode hi)]

/-- Settles O7: the decoded command is well formed, and the step takes the word and is `exec` of it. -/
theorem stepRunsTheDecodedCommand : Obligations.StepRunsTheDecodedCommand := by
  refine ⟨fun s w rest i hin hd => ⟨wf_of_decode hd, ?_⟩, fun s i hi => ?_⟩
  · rw [step_command hin, runWord_of_decode hd]
  · rw [State.withFetchWord, tableWord_toNat]
    exact step_encode hi (presentWord_inbox s _)

/-! ## Cells after a write -/

/-- A coordinate of the grid fits its ten bits (R5, R61). -/
theorem fitsTen_of_grid {cfg : Config} {x y : Nat} (hx : x < cfg.W) (hy : y < cfg.H) :
    fitsTen x = true ∧ fitsTen y = true :=
  ⟨fitsTen_iff.2 (Nat.lt_of_lt_of_le hx cfg.W_range.2), fitsTen_iff.2 (Nat.lt_of_lt_of_le hy cfg.H_range.2)⟩

/-- A state of the cycle fits its byte (R6, R8). -/
theorem lt_256_of_state {cfg : Config} {v : Nat} (hv : v < cfg.K) : v < 256 := Nat.lt_of_lt_of_le hv cfg.K_range.2

/-- What a cell holds after the write of a cell: the state written if it is that cell, else what it held. -/
theorem cellAt_write (m : Memory) {x y v x' y' : Nat} (hx : x < 1024) (hx' : x' < 1024) (hv : v < 256) :
    cellAt (Memory.write m (coordKey x y) (BitVec.ofNat 8 v)) x' y' =
      if x' = x ∧ y' = y then v else cellAt m x' y' := by
  split
  next h =>
    obtain ⟨rfl, rfl⟩ := h
    exact cellAt_write_same m _ _ v hv
  next h => rw [cellAt, read_write_other m (mt (coordKey_inj hx' hx).1 h), cellAt]

theorem storeCell_front {b : Bool} {s : State} (hb : b = s.sel) (x y v : Nat) :
    (storeCell b x y v s).front = Memory.write s.front (coordKey x y) (BitVec.ofNat 8 v) := by
  rw [hb, front_eq, storeCell_sel, storeCell_buf, front_eq]

/-- The buffer that a cell is not stored in is as it was. -/
theorem storeCell_buf_of_ne {b c : Bool} (h : c ≠ b) (x y v : Nat) (s : State) :
    (storeCell b x y v s).buf c = s.buf c := setBuf_buf_of_ne s b c _ h

/-- A cell read depends on the configuration and, within the width of the grid, on that cell. -/
theorem cellRead_congr {b : Bool} {x y : Nat} {s t : State} (hcfg : t.cfg = s.cfg)
    (hcell : x < s.cfg.W → cellAt (t.buf b) x y = cellAt (s.buf b) x y) : cellRead b x y t = cellRead b x y s := by
  unfold cellRead
  rw [hcfg]
  by_cases hx : x < s.cfg.W
  · rw [hcell hx]
  · simp [hx]

/-- The cell that a write names reads as the state written (R41). -/
theorem cellRead_storeCell_same {b : Bool} {x y v : Nat} {s : State} (hx : x < s.cfg.W) (hy : y < s.cfg.H)
    (hv : v < s.cfg.K) : cellRead b x y (storeCell b x y v s) = some v := by
  refine cellRead_eq_some.2 ⟨by simpa using ⟨hx, hy, hv⟩, ?_⟩
  rw [storeCell_buf, cellAt_write_same _ _ _ _ (lt_256_of_state hv)]

/-- Every other cell, of either buffer, reads as it did before the write (R41). -/
theorem cellRead_storeCell_other {b c : Bool} {x y v x' y' : Nat} {s : State} (hx : x < s.cfg.W) (hv : v < s.cfg.K)
    (hne : (c, x', y') ≠ (b, x, y)) : cellRead c x' y' (storeCell b x y v s) = cellRead c x' y' s := by
  refine cellRead_congr (storeCell_cfg s b x y v) fun hx' => ?_
  by_cases hc : c = b
  · subst hc
    have hW := s.cfg.W_range.2
    rw [storeCell_buf, cellAt_write _ (by omega) (by omega) (lt_256_of_state hv), if_neg]
    rintro ⟨rfl, rfl⟩
    exact hne rfl
  · rw [storeCell_buf_of_ne hc]

/-- Settles O22: within the requirements of R41 the write is `storeCell`, whose frame the lemmas above say; outside them
neither access has a result. -/
theorem cellAccessMeetsItsRequirements : Obligations.CellAccessMeetsItsRequirements := by
  intro s b x y v
  refine ⟨fun hinv => hinv.cellRead_eq b, fun hout => cellRead_eq_none.2 (by omega), fun hx hy hv => ?_,
    fun hout => cellWrite_eq_none.2 (by omega)⟩
  refine ⟨storeCell b x y v s, cellWrite_eq_some.2 ⟨⟨hx, hy, hv⟩, rfl⟩, cellRead_storeCell_same hx hy hv,
    fun c x' y' hne => cellRead_storeCell_other hx hv hne, fun a ha => ?_, storeCell_buf_not s b x y v, ?_⟩
  · rw [storeCell_buf, read_write_other _ ha]
  · simp

/-! ## A read after a write -/

/-- WRCELL within its ranges, on a live engine: one cell of the front buffer and the response (R120). -/
theorem exec_wrcell_live {s : State} {x y v : Nat} (hlive : s.fault = false) (hx : x < s.cfg.W) (hy : y < s.cfg.H)
    (hv : v < s.cfg.K) : exec (.wrcell x y v) s = .next (respond .ok 0#28 (storeCell s.sel x y v s)) := by
  rw [exec, execWrcell, wrcellViolation_none.2 ⟨hx, hy, hv⟩, perform_live _ hlive, writeFront_of_range hx hy hv]

/-- RDCELL of a cell of the grid, on a live engine: the response alone (R121). -/
theorem exec_rdcell_live {s : State} {x y : Nat} (hinv : s.Inv) (hlive : s.fault = false) (hx : x < s.cfg.W)
    (hy : y < s.cfg.H) :
    exec (.rdcell x y) s = .next (respond .ok (BitVec.ofNat 28 (cellAt s.front x y)) s) := by
  rw [exec, execRdcell, coordViolation_none.2 ⟨hx, hy⟩, perform_live _ hlive,
    readFront_of_range hx hy (cellAt_lt (hinv.within_buf s.sel) x y)]

/-- A step that takes a WRCELL within its ranges, on a live engine. -/
theorem step_wrcell_live {s : State} {x y v : Nat} {rest : List HostEvent}
    (hin : s.inbox = .command (encode (.wrcell x y v)) :: rest) (hlive : s.fault = false) (hx : x < s.cfg.W)
    (hy : y < s.cfg.H) (hv : v < s.cfg.K) :
    step s = .next (respond .ok 0#28 (storeCell s.sel x y v { s with inbox := rest })) := by
  have hwf : (Instr.wrcell x y v).wf = true := by
    simp [Instr.wf, fitsTen_of_grid hx hy, fitsEight_iff.2 (lt_256_of_state hv)]
  exact (step_encode hwf hin).trans (exec_wrcell_live hlive hx hy hv)

/-- A step that takes an RDCELL of a cell of the grid, on a live engine. -/
theorem step_rdcell_live {s : State} {x y : Nat} {rest : List HostEvent} (hinv : s.Inv)
    (hin : s.inbox = .command (encode (.rdcell x y)) :: rest) (hlive : s.fault = false) (hx : x < s.cfg.W)
    (hy : y < s.cfg.H) :
    step s = .next (respond .ok (BitVec.ofNat 28 (cellAt s.front x y)) { s with inbox := rest }) := by
  have hwf : (Instr.rdcell x y).wf = true := by simp [Instr.wf, fitsTen_of_grid hx hy]
  exact (step_encode hwf hin).trans (exec_rdcell_live (hinv.withLists rest s.responses) hlive hx hy)

/-- The response that carries a stored cell. -/
theorem responseWord_ok_cell (g : Memory) (x y : Nat) :
    responseWord .ok (BitVec.ofNat 28 (cellAt g x y)) = BitVec.ofNat 32 (cellAt g x y) := by
  have hlt : cellAt g x y < 2 ^ 8 := (Memory.read g (coordKey x y)).isLt
  rw [responseWord_ok, BitVec.toNat_ofNat, Nat.mod_eq_of_lt (by omega)]

/-- Settles O11: two steps, of which the second reads the front buffer that the first has written. -/
theorem readAfterWriteInOrder : Obligations.ReadAfterWriteInOrder := by
  intro s x y v x' y' hinv hlive hx hy hv hx' hy' hin
  have hW := s.cfg.W_range.2
  have hwrite := step_wrcell_live hin hlive hx hy hv
  have hread := step_rdcell_live (x := x') (y := y') (rest := []) (step_keeps_inv hinv hwrite) (by simp)
    (by simpa using hlive) (by simpa using hx') (by simpa using hy')
  refine ⟨_, by rw [runSteps_next hwrite, runSteps_next hread, runSteps_zero], ?_⟩
  have hfront : (storeCell s.sel x y v { s with inbox := [.command (encode (.rdcell x' y'))] }).front =
      Memory.write s.front (coordKey x y) (BitVec.ofNat 8 v) := by
    rw [storeCell_front (by rfl)]
    rfl
  have hcell := cellAt_write s.front (y := y) (y' := y') (show x < 1024 by omega) (show x' < 1024 by omega)
    (lt_256_of_state hv)
  rw [respond_responses, responseWord_ok_cell, respond_front, hfront, hcell]
  simp [responseWord_ok]

/-! ## Which commands change a cell -/

@[simp] theorem violated_buf (c : Cause) (s : State) (b : Bool) : (violated c s).buf b = s.buf b := by
  obtain ⟨-, hv⟩ | ⟨-, hv⟩ := violated_cases c s <;> simp [hv]

/-- A WRCELL by its form whose operands are in their ranges is legal (R74). -/
theorem verdict_wrcell {cfg : Config} {w : Word} {x y v : Nat} (h : decode w = .ok (.wrcell x y v)) (hx : x < cfg.W)
    (hy : y < cfg.H) (hv : v < cfg.K) : verdict cfg w = .legal (.wrcell x y v) := by
  obtain ⟨hop, hi⟩ | ⟨-, -, hi⟩ | ⟨-, -, hi⟩ | ⟨-, -, hi⟩ | ⟨-, -, hi⟩ := decode_ok h <;> cases hi
  simp [verdict, hop, Nat.not_le.2 hx, Nat.not_le.2 hy, Nat.not_le.2 hv]

/-- If a command changes what a key of a buffer reads, the engine is live, and it is a WRCELL of the cell with that key in
the front buffer, or a STEP and the buffer is the back buffer (R42). -/
theorem exec_changes_read {i : Instr} {s t : State} {b : Bool} {a : Nat} (h : exec i s = .next t)
    (hne : Memory.read (t.buf b) a ≠ Memory.read (s.buf b) a) :
    s.fault = false ∧
      ((b = s.sel ∧ ∃ x y v, i = .wrcell x y v ∧ (x < s.cfg.W ∧ y < s.cfg.H ∧ v < s.cfg.K) ∧ a = coordKey x y) ∨
        (b = (!s.sel) ∧ i = .step)) := by
  obtain ⟨c, rfl⟩ | ⟨-, rfl⟩ | ⟨p, rfl⟩ | ⟨x, y, v, hi, hlive, hr, rfl⟩ | ⟨hi, hlive, -, rfl⟩ := exec_next h
  case inr.inr.inr.inl =>
    have hb : b = s.sel := by
      by_contra hb
      exact hne (by rw [respond_buf, storeCell_buf_of_ne hb])
    have ha : a = coordKey x y := by
      by_contra ha
      exact hne (by rw [hb, respond_buf, storeCell_buf, read_write_other _ ha])
    exact ⟨hlive, .inl ⟨hb, x, y, v, hi, hr, ha⟩⟩
  case inr.inr.inr.inr =>
    have hb : b = !s.sel := by
      by_contra hb
      exact hne (by rw [respond_buf, toggleSel_buf, setBuf_buf_of_ne s _ _ _ hb])
    exact ⟨hlive, .inr ⟨hb, hi⟩⟩
  all_goals exact absurd (by simp) hne

/-- Settles O48: a word without a form changes no cell, and a command only as `exec_changes_read` says. -/
theorem cellsChangeOnlyByWrcellOrStep : Obligations.CellsChangeOnlyByWrcellOrStep := by
  intro s t w rest b a hin h hne
  rw [step_command hin] at h
  obtain ⟨i, hi, hw⟩ | ⟨r, -, hw⟩ := runWord_cases w { s with inbox := rest } <;> rw [hw] at h
  · obtain ⟨hlive, ⟨hb, x, y, v, rfl, ⟨hx, hy, hv⟩, ha⟩ | ⟨hb, rfl⟩⟩ := exec_changes_read h hne
    · exact ⟨hlive, .inl ⟨hb, x, y, v, verdict_wrcell hi hx hy hv, ha⟩⟩
    · exact ⟨hlive, .inr ⟨hb, decode_eq_step hi⟩⟩
  · obtain rfl := Host.Outcome.next.inj h
    exact absurd (by rw [violated_buf]; rfl) hne

/-! ## A command does not see the words after it -/

/-- The outcome with another list of events still to come. -/
def withRest (rest : List HostEvent) : Host.Outcome State Fault Refusal → Host.Outcome State Fault Refusal
  | .next t => .next { t with inbox := rest }
  | .fault r => .fault r
  | .refused r => .refused r

/-- The outcome of the effect does not depend on the events still to come, which it leaves as they are. -/
def IgnoresInbox (f : State → Host.Outcome State Fault Refusal) : Prop :=
  ∀ (s : State) (rest : List HostEvent), f { s with inbox := rest } = withRest rest (f s)

theorem violated_withInbox (c : Cause) (s : State) (rest : List HostEvent) :
    violated c { s with inbox := rest } = { violated c s with inbox := rest } := by
  unfold violated
  split <;> rfl

theorem setBuf_withInbox (b : Bool) (m : Memory) (s : State) (rest : List HostEvent) :
    ({ s with inbox := rest } : State).setBuf b m = { s.setBuf b m with inbox := rest } := by
  cases b <;> rfl

theorem ignoresInbox_withAccess {α : Type} {access : State → Option α}
    {effect : State → α → Host.Outcome State Fault Refusal}
    (ha : ∀ (s : State) (rest : List HostEvent), access { s with inbox := rest } = access s)
    (he : ∀ a, IgnoresInbox fun s => effect s a) : IgnoresInbox fun s => withAccess (access s) (effect s) := by
  intro s rest
  simp only [ha, withAccess]
  cases access s with
  | some a => exact he a s rest
  | none => rfl

theorem ignoresInbox_perform {v : State → Option Cause} {f : State → Host.Outcome State Fault Refusal}
    (hv : ∀ (s : State) (rest : List HostEvent), v { s with inbox := rest } = v s) (hf : IgnoresInbox f) :
    IgnoresInbox fun s => perform (v s) f s := by
  intro s rest
  simp only [hv, perform]
  cases v s with
  | some c => simp only [violated_withInbox, withRest]
  | none =>
    simp only
    split
    · rfl
    · exact hf s rest

theorem ignoresInbox_writeFront (x y v : Nat) : IgnoresInbox (writeFront x y v) := by
  intro s rest
  simp only [writeFront, cellWrite, storeCell, setBuf_withInbox]
  split <;> rfl

theorem ignoresInbox_readFront (x y : Nat) : IgnoresInbox (readFront x y) :=
  ignoresInbox_withAccess (fun _ _ => rfl) (fun _ _ _ => rfl)

theorem ignoresInbox_answerNbrs (x y : Nat) : IgnoresInbox (answerNbrs x y) :=
  ignoresInbox_withAccess (fun _ _ => rfl) (fun _ _ _ => rfl)

theorem ignoresInbox_generation : IgnoresInbox generation := by
  intro s rest
  have hfront : ({ s with inbox := rest } : State).front = s.front := rfl
  simp only [generation, setBuf_withInbox, hfront]
  split <;> rfl

theorem ignoresInbox_exec (i : Instr) : IgnoresInbox (exec i) := by
  cases i with
  | wrcell x y v => exact ignoresInbox_perform (fun _ _ => rfl) (ignoresInbox_writeFront x y v)
  | rdcell x y => exact ignoresInbox_perform (fun _ _ => rfl) (ignoresInbox_readFront x y)
  | step => exact ignoresInbox_perform (v := fun _ => none) (fun _ _ => rfl) ignoresInbox_generation
  | nbrs x y => exact ignoresInbox_perform (fun _ _ => rfl) (ignoresInbox_answerNbrs x y)
  | rdreg r =>
    intro s rest
    have hreg : readRegister r { s with inbox := rest } = readRegister r s := rfl
    simp only [exec, execRdreg, hreg]
    split
    · rfl
    · rw [violated_withInbox, withRest]

/-- The single-command function of R49 ignores what the host sends afterwards. -/
theorem ignoresInbox_runWord (w : Word) : IgnoresInbox (runWord w) := by
  intro s rest
  unfold runWord
  split
  next i _ => exact ignoresInbox_exec i s rest
  next => rw [violated_withInbox, withRest]

/-- The steps that take the words `ws` are the left fold of the single-command function over `ws` (R49), by induction on
`ws`: the first step leaves the tail for the next steps, and its outcome does not depend on it. -/
theorem runSteps_commands {ws : List Word} {s : State} (hinv : s.Inv) (hin : s.inbox = commandsOf ws) :
    runSteps ws.length s = ws.foldl thenWord (.next { s with inbox := [] }) := by
  induction ws generalizing s with
  | nil =>
    have hs : ({ s with inbox := [] } : State) = s := by rw [← show s.inbox = [] from hin]
    rw [List.length_nil, runSteps_zero, List.foldl_nil, hs]
  | cons w ws ih =>
    obtain ⟨u, hu, hinvu⟩ := runWord_completesInv w (hinv.withLists [] s.responses)
    have hstep : step s = .next { u with inbox := commandsOf ws } := by
      rw [step_command hin]
      exact (ignoresInbox_runWord w { s with inbox := [] } (commandsOf ws)).trans (congrArg (withRest _) hu)
    have hdone : Host.Outcome.next { u with inbox := [] } = runWord w { s with inbox := [] } :=
      ((ignoresInbox_runWord w { s with inbox := [] } []).trans (congrArg (withRest []) hu)).symm
    calc runSteps (ws.length + 1) s
        = runSteps ws.length { u with inbox := commandsOf ws } := runSteps_next hstep
      _ = ws.foldl thenWord (.next { u with inbox := [] }) := ih (hinvu.withLists _ u.responses) rfl
      _ = ws.foldl thenWord (runWord w { s with inbox := [] }) := by rw [hdone]

/-- Settles O46: the induction over the words of `runSteps_commands`. -/
theorem sequenceIsTheLeftFold : Obligations.SequenceIsTheLeftFold := fun _ _ => runSteps_commands

end Machine

end Sys2Proof
end

section
/-! The encoding of the commands, what R74 finds in a word, and the one response to each word (`spec/30_encoding.md` R63
to R68, R70, R73, R74). -/

namespace Sys2Proof

/-! ## The form of a word -/

/-- The bits below `op` are 0 exactly when each of the three fields is (R61). -/
theorem field_below_op_eq_zero {w : Word} : field w 27 0 = 0 ↔ sField w = 0 ∧ yField w = 0 ∧ xField w = 0 := by
  unfold sField yField xField field
  omega

/-- The command with the mnemonic of `i` whose operands are the fields of the word (R63). -/
def Instr.withFields (w : Word) : Instr → Instr
  | .wrcell _ _ _ => .wrcell (xField w) (yField w) (sField w)
  | .rdcell _ _ => .rdcell (xField w) (yField w)
  | .step => .step
  | .nbrs _ _ => .nbrs (xField w) (yField w)
  | .rdreg _ => .rdreg (xField w)

/-- The operation code of the command stands in the word, and its must-be-zero fields are 0 (R61, R64). -/
def Instr.FieldsMatch (w : Word) : Instr → Prop
  | .wrcell _ _ _ => opField w = 1
  | .rdcell _ _ => opField w = 2 ∧ sField w = 0
  | .step => opField w = 3 ∧ field w 27 0 = 0
  | .nbrs _ _ => opField w = 4 ∧ sField w = 0
  | .rdreg _ => opField w = 5 ∧ sField w = 0 ∧ yField w = 0

theorem fieldsMatch_withFields {w : Word} {i : Instr} : (i.withFields w).FieldsMatch w ↔ i.FieldsMatch w := by
  cases i <;> rfl

theorem matchBits_withFields (w : Word) (i : Instr) : (i.withFields w).matchBits = i.matchBits := by
  cases i <;> rfl

/-- The mask of a command covers `op` and its must-be-zero fields, and nothing else (R63). -/
theorem masked_iff_fieldsMatch (w : Word) (i : Instr) : w &&& i.maskBits = i.matchBits ↔ i.FieldsMatch w := by
  have hw := w.isLt
  cases i with
  | wrcell x y v =>
    refine (masked_eq_iff w (k := 28) rfl).trans ?_
    simp only [Instr.matchBits, Instr.FieldsMatch, opField, field, BitVec.toNat_ofNat]
    omega
  | rdcell x y =>
    refine (masked_eq_iff w (k := 20) rfl).trans ?_
    simp only [Instr.matchBits, Instr.FieldsMatch, opField, sField, field, BitVec.toNat_ofNat]
    omega
  | step =>
    refine (masked_eq_iff w (k := 0) rfl).trans ?_
    simp only [Instr.matchBits, Instr.FieldsMatch, opField, field, BitVec.toNat_ofNat]
    omega
  | nbrs x y =>
    refine (masked_eq_iff w (k := 20) rfl).trans ?_
    simp only [Instr.matchBits, Instr.FieldsMatch, opField, sField, field, BitVec.toNat_ofNat]
    omega
  | rdreg r =>
    refine (masked_eq_iff w (k := 10) rfl).trans ?_
    simp only [Instr.matchBits, Instr.FieldsMatch, opField, sField, yField, field, BitVec.toNat_ofNat]
    omega

/-- A word with the fields of a command decodes to that command (R63). -/
theorem decode_of_fieldsMatch {w : Word} {i : Instr} (h : i.FieldsMatch w) : decode w = .ok (i.withFields w) := by
  cases i <;> simp only [Instr.FieldsMatch] at h <;> simp [decode, Instr.withFields, h]

/-- A decoded command has its fields in the word, and they are its operands. -/
theorem fieldsMatch_of_decode {w : Word} {i : Instr} (h : decode w = .ok i) : i.FieldsMatch w ∧ i.withFields w = i := by
  obtain ⟨hop, rfl⟩ | ⟨hop, hz, rfl⟩ | ⟨hop, hz, rfl⟩ | ⟨hop, hz, rfl⟩ | ⟨hop, hz, rfl⟩ := decode_ok h
  · exact ⟨hop, rfl⟩
  all_goals exact ⟨⟨hop, hz⟩, rfl⟩

/-- A word has the form of a command exactly when it decodes to that command with its own fields (R63). -/
theorem masked_iff_decode (w : Word) (i : Instr) :
    w &&& i.maskBits = i.matchBits ↔ decode w = .ok (i.withFields w) :=
  (masked_iff_fieldsMatch w i).trans
    ⟨decode_of_fieldsMatch, fun h => fieldsMatch_withFields.1 (fieldsMatch_of_decode h).1⟩

/-- A word that decodes is the encoding of its command (R64). -/
theorem encode_of_decode {w : Word} {i : Instr} (h : decode w = .ok i) : encode i = w := by
  have hpack := pack_fields w
  obtain ⟨hop, rfl⟩ | ⟨hop, hs, rfl⟩ | ⟨hop, hz, rfl⟩ | ⟨hop, hs, rfl⟩ | ⟨hop, ⟨hs, hy⟩, rfl⟩ := decode_ok h
  case inr.inr.inl =>
    obtain ⟨hs, hy, hx⟩ := field_below_op_eq_zero.1 hz
    rwa [hop, hs, hy, hx] at hpack
  case inr.inr.inr.inr => rwa [hop, hs, hy] at hpack
  case inl => rwa [hop] at hpack
  all_goals rwa [hop, hs] at hpack

/-! ## The words without a form -/

/-- RDCELL and NBRS with a state operand are rejected (R64). -/
theorem decode_of_state_field {w : Word} (hop : opField w = 2 ∨ opField w = 4) (hs : sField w ≠ 0) :
    decode w = .error .nonzeroField := by
  obtain hop | hop := hop <;> simp [decode, hop, hs]

/-- STEP with any operand bit is rejected (R64). -/
theorem decode_of_step_bits {w : Word} (hop : opField w = 3) (hz : field w 27 0 ≠ 0) :
    decode w = .error .nonzeroField := by
  simp [decode, hop, hz]

/-- RDREG with a state or a y operand is rejected (R64). -/
theorem decode_of_register_bits {w : Word} (hop : opField w = 5) (hz : sField w ≠ 0 ∨ yField w ≠ 0) :
    decode w = .error .nonzeroField := by
  simp only [decode, hop]
  exact if_neg fun h => hz.elim (fun hs => hs h.1) fun hy => hy h.2

/-- The operation codes 0 and 6 to 15 are rejected (R65). -/
theorem decode_of_reserved {w : Word} (hop : opField w = 0 ∨ 6 ≤ opField w) : decode w = .error .reservedOpcode := by
  unfold decode
  split <;> try omega
  rfl

/-- R132's list of the illegal words. -/
def IllegalWord (w : Word) : Prop :=
  opField w = 0 ∨ 6 ≤ opField w ∨ ((opField w = 2 ∨ opField w = 4) ∧ sField w ≠ 0) ∨
    (opField w = 3 ∧ field w 27 0 ≠ 0) ∨ (opField w = 5 ∧ (sField w ≠ 0 ∨ yField w ≠ 0))

theorem decode_of_illegalWord {w : Word} (h : IllegalWord w) : ∃ r, decode w = .error r := by
  obtain hop | hop | ⟨hop, hs⟩ | ⟨hop, hz⟩ | ⟨hop, hz⟩ := h
  · exact ⟨_, decode_of_reserved (.inl hop)⟩
  · exact ⟨_, decode_of_reserved (.inr hop)⟩
  · exact ⟨_, decode_of_state_field hop hs⟩
  · exact ⟨_, decode_of_step_bits hop hz⟩
  · exact ⟨_, decode_of_register_bits hop hz⟩

/-- A form whose must-be-zero check rejects the word has a field that is not 0. -/
theorem checked_error {p : Prop} [Decidable p] {j : Instr} {r r' : DecodeReject}
    (h : (if p then .ok j else .error r) = (.error r' : Except DecodeReject Instr)) : ¬p := by
  split at h
  next => cases h
  next hp => exact hp

theorem illegalWord_of_decode {w : Word} {r : DecodeReject} (h : decode w = .error r) : IllegalWord w := by
  unfold decode at h
  split at h
  next => cases h
  next hop => exact .inr (.inr (.inl ⟨.inl hop, checked_error h⟩))
  next hop => exact .inr (.inr (.inr (.inl ⟨hop, checked_error h⟩)))
  next hop => exact .inr (.inr (.inl ⟨.inr hop, checked_error h⟩))
  next hop => exact .inr (.inr (.inr (.inr ⟨hop, Decidable.not_and_iff_or_not.1 (checked_error h)⟩)))
  next h1 h2 h3 h4 h5 =>
    have hop : opField w = 0 ∨ 6 ≤ opField w := by
      simp only [imp_false] at h1 h2 h3 h4 h5
      omega
    exact hop.imp_right .inl

/-- Settles O1: `decode_encode` and `encode_of_decode`, and the three checks of the must-be-zero fields. -/
theorem encodingIsOneToOne : Obligations.EncodingIsOneToOne := by
  refine ⟨fun i => decode_encode, fun w i h => ⟨wf_of_decode h, encode_of_decode h⟩, fun w => decode_of_state_field,
    fun w => decode_of_register_bits, fun w hop hz => decode_of_step_bits hop fun hzero => ?_⟩
  obtain ⟨hs, hy, hx⟩ := field_below_op_eq_zero.1 hzero
  simp [hs, hy, hx] at hz

/-- Settles O2: `masked_iff_decode` for each command; a word with two forms would decode to both. -/
theorem formIsMaskAndMatch : Obligations.FormIsMaskAndMatch := by
  intro w
  refine ⟨masked_iff_decode w (.wrcell 0 0 0), masked_iff_decode w (.rdcell 0 0), masked_iff_decode w .step,
    masked_iff_decode w (.nbrs 0 0), masked_iff_decode w (.rdreg 0), fun i j hi hj => ?_⟩
  have heq : i.withFields w = j.withFields w :=
    Except.ok.inj (((masked_iff_decode w i).1 hi).symm.trans ((masked_iff_decode w j).1 hj))
  rw [← matchBits_withFields w i, heq, matchBits_withFields]

/-- Settles O3: eight fixed words, by evaluating the decoder. -/
theorem sampleWordsDecode : Obligations.SampleWordsDecode := by
  unfold Obligations.SampleWordsDecode
  decide

/-- Settles O4: `toNat_pack` with the must-be-zero fields at 0. -/
theorem assembledWordIsSumOfFields : Obligations.AssembledWordIsSumOfFields := by
  refine ⟨fun x y v hx hy hv => ?_, fun x y hx hy => ?_, rfl, fun x y hx hy => ?_, fun r hr => ?_⟩
  all_goals
    rw [encode, toNat_pack (by decide) (by omega) (by omega) (by omega)]
    omega

namespace Machine

/-! ## What R74 finds in a word -/

/-- The operand checks of a command, in the order of R136. -/
def operandViolation (cfg : Config) : Instr → Option Cause
  | .wrcell x y v => wrcellViolation cfg x y v
  | .rdcell x y => coordViolation cfg x y
  | .step => none
  | .nbrs x y => coordViolation cfg x y
  | .rdreg r => if r < 5 then none else some .regRange

/-- A command is legal, or violates one of its operand checks. -/
def checkOperands (cfg : Config) (i : Instr) : Verdict :=
  match operandViolation cfg i with
  | some c => .viol c
  | none => .legal i

theorem coordViolation_eq (cfg : Config) (x y : Nat) :
    coordViolation cfg x y = if ¬(x < cfg.W ∧ y < cfg.H) then some .coordRange else none := by
  split
  next h => exact coordViolation_some.2 ⟨h, rfl⟩
  next h => exact coordViolation_none.2 (not_not.1 h)

theorem wrcellViolation_eq (cfg : Config) (x y v : Nat) :
    wrcellViolation cfg x y v =
      if ¬(x < cfg.W ∧ y < cfg.H) then some .coordRange else if ¬v < cfg.K then some .stateRange else none := by
  rw [wrcellViolation, coordViolation_eq]
  by_cases hxy : x < cfg.W ∧ y < cfg.H <;> by_cases hv : v < cfg.K <;> simp [hxy, hv]

/-- An operand check finds one of the three range causes (R133 to R135). -/
theorem operandViolation_cause {cfg : Config} {i : Instr} {c : Cause} (h : operandViolation cfg i = some c) :
    c = .coordRange ∨ c = .stateRange ∨ c = .regRange := by
  cases i with
  | wrcell x y v =>
    simp only [operandViolation, wrcellViolation_eq] at h
    split at h
    · exact .inl (Option.some.inj h).symm
    · split at h
      · exact .inr (.inl (Option.some.inj h).symm)
      · cases h
  | rdcell x y => exact .inl (coordViolation_some.1 h).2
  | step => cases h
  | nbrs x y => exact .inl (coordViolation_some.1 h).2
  | rdreg r =>
    simp only [operandViolation] at h
    split at h
    · cases h
    · exact .inr (.inr (Option.some.inj h).symm)

theorem verdict_of_error {cfg : Config} {w : Word} {r : DecodeReject} (h : decode w = .error r) :
    verdict cfg w = .viol .illegalCmd := by
  obtain hop | hop | ⟨hop | hop, hs⟩ | ⟨hop, hz⟩ | ⟨hop, hz⟩ := illegalWord_of_decode h
  case inr.inl =>
    unfold verdict
    split <;> try omega
    rfl
  all_goals simp [verdict, *]

theorem checkOperands_wrcell (cfg : Config) (x y v : Nat) :
    checkOperands cfg (.wrcell x y v) =
      if ¬(x < cfg.W ∧ y < cfg.H) then .viol .coordRange
      else if ¬v < cfg.K then .viol .stateRange else .legal (.wrcell x y v) := by
  rw [checkOperands, operandViolation, wrcellViolation_eq]
  by_cases hxy : x < cfg.W ∧ y < cfg.H <;> by_cases hv : v < cfg.K <;> simp [hxy, hv]

theorem checkOperands_rdcell (cfg : Config) (x y : Nat) :
    checkOperands cfg (.rdcell x y) =
      if ¬(x < cfg.W ∧ y < cfg.H) then .viol .coordRange else .legal (.rdcell x y) := by
  rw [checkOperands, operandViolation, coordViolation_eq]
  by_cases hxy : x < cfg.W ∧ y < cfg.H <;> simp [hxy]

theorem checkOperands_nbrs (cfg : Config) (x y : Nat) :
    checkOperands cfg (.nbrs x y) =
      if ¬(x < cfg.W ∧ y < cfg.H) then .viol .coordRange else .legal (.nbrs x y) := by
  rw [checkOperands, operandViolation, coordViolation_eq]
  by_cases hxy : x < cfg.W ∧ y < cfg.H <;> simp [hxy]

theorem checkOperands_rdreg (cfg : Config) (r : Nat) :
    checkOperands cfg (.rdreg r) = if r < 5 then .legal (.rdreg r) else .viol .regRange := by
  rw [checkOperands, operandViolation]
  by_cases hr : r < 5 <;> simp [hr]

/-- R74 checks the operands of the command that the word decodes to. -/
theorem verdict_of_decode {cfg : Config} {w : Word} {i : Instr} (h : decode w = .ok i) :
    verdict cfg w = checkOperands cfg i := by
  obtain ⟨hop, rfl⟩ | ⟨hop, hz, rfl⟩ | ⟨hop, hz, rfl⟩ | ⟨hop, hz, rfl⟩ | ⟨hop, hz, rfl⟩ := decode_ok h
  · rw [checkOperands_wrcell]
    simp [verdict, hop, or_iff_not_imp_left]
  · rw [checkOperands_rdcell]
    simp [verdict, hop, hz, or_iff_not_imp_left]
  · simp [verdict, hop, hz, checkOperands, operandViolation]
  · rw [checkOperands_nbrs]
    simp [verdict, hop, hz, or_iff_not_imp_left]
  · rw [checkOperands_rdreg, ← ite_not]
    simp [verdict, hop, hz]

/-- Settles O6: R74 on a word without a form, and on each decoded command. -/
theorem verdictIsFormThenOperandChecks : Obligations.VerdictIsFormThenOperandChecks := by
  intro cfg w
  exact ⟨fun r => verdict_of_error,
    fun x y v h => (verdict_of_decode h).trans (checkOperands_wrcell cfg x y v),
    fun x y h => (verdict_of_decode h).trans (checkOperands_rdcell cfg x y), verdict_of_decode,
    fun x y h => (verdict_of_decode h).trans (checkOperands_nbrs cfg x y),
    fun r h => (verdict_of_decode h).trans (checkOperands_rdreg cfg r)⟩

/-! ## The response to a word -/

/-- A command was executed: the flags are as they were, and there is one new response, with status OK (R67, R68). -/
structure Executed (s t : State) : Prop where
  inbox : t.inbox = s.inbox
  fault : t.fault = s.fault
  cause : t.cause = s.cause
  response : ∃ p, t.responses = s.responses ++ [responseWord .ok p]

theorem executed_respond (p : Payload) (s : State) : Executed s (respond .ok p s) := ⟨rfl, rfl, rfl, p, rfl⟩

/-- If a guarded command answers a next state, its check failed, or a faulted engine refused it, or it was executed. -/
theorem perform_answers {v : Option Cause} {f : State → Host.Outcome State Fault Refusal} {s t : State}
    (hf : f s = .next t → Executed s t) (h : perform v f s = .next t) :
    (∃ c, v = some c ∧ t = violated c s) ∨ (s.fault = true ∧ t = refuse s) ∨ Executed s t := by
  obtain ⟨c, hc, hp⟩ | ⟨-, hfault, hp⟩ | ⟨-, -, hp⟩ := perform_cases v f s <;> rw [hp] at h
  · exact .inl ⟨c, hc, (Host.Outcome.next.inj h).symm⟩
  · exact .inr (.inl ⟨hfault, (Host.Outcome.next.inj h).symm⟩)
  · exact .inr (.inr (hf h))

theorem exec_answers {i : Instr} {s t : State} (h : exec i s = .next t) :
    (∃ c, operandViolation s.cfg i = some c ∧ t = violated c s) ∨ (s.fault = true ∧ t = refuse s) ∨ Executed s t := by
  cases i with
  | wrcell x y v =>
    refine perform_answers (fun he => ?_) h
    obtain ⟨-, rfl⟩ := writeFront_next he
    exact ⟨by simp, by simp, by simp, 0#28, by simp⟩
  | rdcell x y =>
    refine perform_answers (fun he => ?_) h
    obtain ⟨-, rfl⟩ := readFront_next he
    exact executed_respond _ s
  | step =>
    refine perform_answers (f := generation) (fun he => ?_) h
    obtain ⟨-, rfl⟩ := generation_next he
    exact ⟨by simp, by simp, by simp, 0#28, by simp⟩
  | nbrs x y =>
    refine perform_answers (fun he => ?_) h
    obtain ⟨p, -, rfl⟩ := answerNbrs_next he
    exact executed_respond p s
  | rdreg r =>
    simp only [exec, execRdreg] at h
    split at h
    next p _ =>
      obtain rfl := Host.Outcome.next.inj h
      exact .inr (.inr (executed_respond p s))
    next hr =>
      exact .inl ⟨.regRange, if_neg (Nat.not_lt.2 (readRegister_none.1 hr)), (Host.Outcome.next.inj h).symm⟩

/-- Everything a word can do to the flags and the responses: fault entry of a live engine (R137), the refusal of a faulted
one (R138), or its execution. -/
theorem runWord_answers {w : Word} {s t : State} (h : runWord w s = .next t) :
    (∃ c, c ≠ .none ∧ s.fault = false ∧ t = raiseFault c s) ∨ (s.fault = true ∧ t = refuse s) ∨ Executed s t := by
  have hanswers : (∃ c, c ≠ .none ∧ t = violated c s) ∨ (s.fault = true ∧ t = refuse s) ∨ Executed s t := by
    obtain ⟨i, -, hw⟩ | ⟨r, -, hw⟩ := runWord_cases w s <;> rw [hw] at h
    · refine (exec_answers h).imp_left fun ⟨c, hc, ht⟩ => ⟨c, ?_, ht⟩
      obtain rfl | rfl | rfl := operandViolation_cause hc <;> simp
    · exact .inl ⟨.illegalCmd, by simp, (Host.Outcome.next.inj h).symm⟩
  obtain ⟨c, hc, rfl⟩ | hrest := hanswers
  · obtain ⟨hfault, hv⟩ | ⟨hlive, hv⟩ := violated_cases c s
    · exact .inr (.inl ⟨hfault, hv⟩)
    · exact .inl ⟨c, hc, hlive, hv⟩
  · exact .inr hrest

/-- Settles O5: the illegal words are those the decoder rejects, and the checks of a decoded command find range causes. -/
theorem illegalWordsRaiseIllegalCmd : Obligations.IllegalWordsRaiseIllegalCmd := by
  intro s w rest hin hlive hnone
  refine ⟨?_, fun hillegal => ?_, fun hlegal t h => ?_⟩
  · rintro (rfl | rfl)
    · exact .inl rfl
    · exact .inr (.inl (by decide))
  · obtain ⟨r, hr⟩ := decode_of_illegalWord hillegal
    rw [step_command hin, runWord, hr]
    simp [violated, hlive, raiseFault, setFault, respond, responseWord_raised, Cause.code]
  · rw [step_command hin] at h
    obtain ⟨i, -, hw⟩ | ⟨r, hr, -⟩ := runWord_cases w { s with inbox := rest }
    · rw [hw] at h
      obtain ⟨c, hc, rfl⟩ | ⟨-, rfl⟩ | hex := exec_answers h
      · rw [violated, if_neg (by simp [hlive]), raiseFault_cause]
        obtain rfl | rfl | rfl := operandViolation_cause hc <;> simp
      · simp [hnone]
      · simp [hex.cause, hnone]
    · exact absurd (illegalWord_of_decode hr) hlegal

/-! ## The fields of a response -/

theorem responseWord_toNat (st : Status) (p : Payload) :
    (responseWord st p).toNat = st.code.toNat * 2 ^ 28 + p.toNat := by
  rw [responseWord, BitVec.toNat_append, ← Nat.shiftLeft_add_eq_or_of_lt p.isLt, Nat.shiftLeft_eq]

@[simp] theorem statusOf_responseWord (st : Status) (p : Payload) : statusOf (responseWord st p) = st.code.toNat := by
  have hst := st.code.isLt
  have hp := p.isLt
  rw [statusOf, field, responseWord_toNat]
  omega

@[simp] theorem payloadOf_responseWord (st : Status) (p : Payload) : payloadOf (responseWord st p) = p.toNat := by
  have hp := p.isLt
  rw [payloadOf, field, responseWord_toNat]
  omega

/-- A fault status is the cause code (R68). -/
theorem raised_code_toNat (c : Cause) : (Status.raised c).code.toNat = c.code.toNat := by
  cases c <;> rfl

/-- A response reports a fault of its command exactly when its status is a cause (R68). -/
theorem reportsFault_raised {c : Cause} (hc : c ≠ .none) (p : Payload) :
    reportsFault (responseWord (.raised c) p) = true := by
  rw [reportsFault, statusOf_responseWord]
  cases c with
  | none => exact absurd rfl hc
  | _ => rfl

theorem reportsFault_ok (p : Payload) : reportsFault (responseWord .ok p) = false := by
  rw [reportsFault, statusOf_responseWord]
  rfl

theorem reportsFault_faulted (p : Payload) : reportsFault (responseWord .faulted p) = false := by
  rw [reportsFault, statusOf_responseWord]
  rfl

/-- Settles O42: fault entry, the refusal and the execution each give one response, with the status that says which. -/
theorem oneResponsePerCommand : Obligations.OneResponsePerCommand := by
  intro s t w rest hin h
  rw [step_command hin] at h
  obtain ⟨c, hc, hlive, rfl⟩ | ⟨hfault, rfl⟩ | hex := runWord_answers h
  · refine ⟨rfl, _, rfl, ?_⟩
    have hle := c.code_le
    have hlive' : s.fault = false := hlive
    simp [raised_code_toNat, reportsFault_raised hc, hlive']
    omega
  · have hfault' : s.fault = true := hfault
    refine ⟨rfl, _, rfl, ?_⟩
    simp [reportsFault_faulted, hfault', Status.code]
  · obtain ⟨p, hp⟩ := hex.response
    refine ⟨hex.inbox, _, hp, ?_⟩
    simp [reportsFault_ok, hex.fault, Status.code]

/-! ## Fault statuses over a run -/

/-- The host has nothing but commands left to send. -/
def OnlyCommands (s : State) : Prop := ∃ ws, s.inbox = commandsOf ws

/-- Each response since `s` that reports a fault is a rise of FAULT, which without a reset does not fall. -/
def CountsFaults (s t : State) : Prop :=
  ∃ new, t.responses = s.responses ++ new ∧ new.countP reportsFault + s.fault.toNat = t.fault.toNat

theorem CountsFaults.refl (s : State) : CountsFaults s s := ⟨[], by simp, by simp⟩

theorem CountsFaults.trans {s u t : State} (hsu : CountsFaults s u) (hut : CountsFaults u t) : CountsFaults s t := by
  obtain ⟨new, hnew, hcount⟩ := hsu
  obtain ⟨new', hnew', hcount'⟩ := hut
  refine ⟨new ++ new', by rw [hnew', hnew, List.append_assoc], ?_⟩
  rw [List.countP_append]
  omega

theorem runWord_countsFaults {w : Word} {s t : State} (h : runWord w s = .next t) : CountsFaults s t := by
  obtain ⟨c, hc, hlive, rfl⟩ | ⟨-, rfl⟩ | hex := runWord_answers h
  · exact ⟨_, rfl, by simp [reportsFault_raised hc, hlive]⟩
  · exact ⟨_, rfl, by simp [reportsFault_faulted]⟩
  · obtain ⟨p, hp⟩ := hex.response
    exact ⟨_, hp, by simp [reportsFault_ok, hex.fault]⟩

theorem runWord_keeps_inbox {w : Word} {s t : State} (h : runWord w s = .next t) : t.inbox = s.inbox := by
  obtain ⟨c, -, -, rfl⟩ | ⟨-, rfl⟩ | hex := runWord_answers h
  · rfl
  · rfl
  · exact hex.inbox

theorem step_countsFaults {s t : State} (h : step s = .next t) (hs : OnlyCommands s) :
    OnlyCommands t ∧ CountsFaults s t := by
  obtain ⟨ws, hin⟩ := hs
  cases ws with
  | nil =>
    obtain rfl := Host.Outcome.next.inj ((step_idle hin).symm.trans h)
    exact ⟨⟨[], hin⟩, .refl s⟩
  | cons w ws =>
    rw [step_command hin] at h
    exact ⟨⟨ws, runWord_keeps_inbox h⟩, (runWord_countsFaults h :)⟩

/-- Settles O41: over the run the fault statuses add up to the rise of FAULT, which is one bit. -/
theorem atMostOneFaultStatusBetweenResets : Obligations.AtMostOneFaultStatusBetweenResets := by
  intro n s t ws hin h
  obtain ⟨-, new, hnew, hcount⟩ := runSteps_relates (R := fun s t => OnlyCommands s → OnlyCommands t ∧ CountsFaults s t)
    (fun s hs => ⟨hs, .refl s⟩) (fun hsu hut hs => ⟨(hut (hsu hs).1).1, (hsu hs).2.trans (hut (hsu hs).1).2⟩)
    step_countsFaults h ⟨ws, hin⟩
  have ht := t.fault.toNat_le
  simp only [← Bool.toNat_eq_one, ← Bool.toNat_eq_zero]
  exact ⟨new, hnew, by omega, by omega, by omega⟩

end Machine

end Sys2Proof
end

section
/-! The neighbourhood locator and NBRS (`spec/40_locator.md` R90 to R97). A neighbour exists when both of its coordinates
lie in the grid, so everything the locator says about a cell of the grid follows from four bits: whether the grid goes on to
the left, to the right, above and below it. -/

namespace Sys2Proof.Machine

/-! ## One axis at a time -/

/-- The coordinate at distance `d` from `n` lies in `[0, size)`: the bounds predicate of R91 along one axis. -/
def onAxis (size n : Nat) (d : Int) : Bool := decide (0 ≤ (n : Int) + d) && decide ((n : Int) + d < size)

theorem onAxis_iff {size n : Nat} {d : Int} : onAxis size n d = true ↔ 0 ≤ (n : Int) + d ∧ (n : Int) + d < size := by
  simp [onAxis]

theorem inb_eq_onAxis (cfg : Config) (x y : Nat) (dx dy : Int) :
    inb cfg (x + dx) (y + dy) = (onAxis cfg.W x dx && onAxis cfg.H y dy) := by
  simp only [inb, onAxis, Bool.and_assoc]

theorem axisCount_eq_countP (size n : Nat) : axisCount size n = [-1, 0, 1].countP (onAxis size n) := rfl

theorem onAxis_here {size n : Nat} (h : n < size) : onAxis size n 0 = true := onAxis_iff.2 (by omega)

theorem onAxis_before {size n : Nat} (h : n < size) : onAxis size n (-1) = decide (n ≠ 0) := by
  rw [Bool.eq_iff_iff, onAxis_iff, decide_eq_true_eq]
  omega

theorem onAxis_after {size n : Nat} (h : n < size) : onAxis size n 1 = decide (n ≠ size - 1) := by
  rw [Bool.eq_iff_iff, onAxis_iff, decide_eq_true_eq]
  omega

/-- The coordinate itself counts, and each side of it where it is not at that end (R95). -/
theorem axisCount_of_lt {size n : Nat} (h : n < size) :
    axisCount size n = 1 + (decide (n ≠ 0)).toNat + (decide (n ≠ size - 1)).toNat := by
  rw [axisCount_eq_countP, List.countP_cons, List.countP_cons, List.countP_singleton, onAxis_before h, onAxis_here h,
    onAxis_after h]
  cases decide (n ≠ 0) <;> cases decide (n ≠ size - 1) <;> rfl

theorem axisCount_of_two_le {size n : Nat} (h : n < size) (hsize : 2 ≤ size) :
    axisCount size n = if n = 0 ∨ n = size - 1 then 2 else 3 := by
  rw [axisCount_of_lt h, Bool.toNat, Bool.toNat, Bool.cond_decide, Bool.cond_decide]
  split_ifs <;> omega

theorem axisCount_of_one {size n : Nat} (h : n < size) (hsize : size = 1) : axisCount size n = 1 := by
  obtain rfl : n = 0 := by omega
  rw [axisCount_of_lt h, hsize]
  rfl

/-! ## Which neighbours exist -/

/-- Which of the eight neighbours exist, in the order of their index (R92). -/
def existing (cfg : Config) (x y : Nat) : List Bool := offsets.map fun d => (neighbourAt cfg x y d).isSome

/-- The eight bits of a cell, from whether the grid goes on to the left, to the right, above and below it. -/
def existingBySide (left right top bottom : Bool) : List Bool :=
  [left && top, left, left && bottom, top, bottom, right && top, right, right && bottom]

/-- The neighbours of a cell exist as its position on the two axes says (R92, R93). -/
theorem existing_of_grid {cfg : Config} {x y : Nat} (hx : x < cfg.W) (hy : y < cfg.H) :
    existing cfg x y =
      existingBySide (decide (x ≠ 0)) (decide (x ≠ cfg.W - 1)) (decide (y ≠ 0)) (decide (y ≠ cfg.H - 1)) := by
  have hbit (d : Int × Int) : (neighbourAt cfg x y d).isSome = (onAxis cfg.W x d.1 && onAxis cfg.H y d.2) :=
    (neighbourAt_isSome hx hy d).trans (inb_eq_onAxis cfg x y d.1 d.2)
  simp only [existing, existingBySide, offsets, List.map_cons, List.map_nil, hbit, onAxis_before hx, onAxis_before hy,
    onAxis_here hx, onAxis_here hy, onAxis_after hx, onAxis_after hy, Bool.and_true, Bool.true_and]

theorem countP_offsets_eq (cfg : Config) (x y : Nat) :
    offsets.countP (fun d => (neighbourAt cfg x y d).isSome) = (existing cfg x y).countP id :=
  (List.countP_map (p := id)).symm

/-- The three by three block has as many cells in the grid as the product of its axes, the cell itself among them (R95). -/
theorem countP_existingBySide (left right top bottom : Bool) :
    (existingBySide left right top bottom).countP id =
      (1 + left.toNat + right.toNat) * (1 + top.toNat + bottom.toNat) - 1 := by
  revert left right top bottom
  decide

theorem nbrcount_of_grid {cfg : Config} {x y : Nat} (hx : x < cfg.W) (hy : y < cfg.H) :
    nbrcount cfg x y = some (axisCount cfg.W x * axisCount cfg.H y - 1) := by
  refine located_eq_some.2 ⟨⟨hx, hy⟩, ?_⟩
  rw [countP_offsets_eq, existing_of_grid hx hy, countP_existingBySide, axisCount_of_lt hx, axisCount_of_lt hy]

/-- Settles O19: the count is the product of the two axes without the cell itself, and each axis counts by its size. -/
theorem neighbourCountFormula : Obligations.NeighbourCountFormula := by
  intro cfg x y hx hy
  have hcount := nbrcount_of_grid hx hy
  refine ⟨hcount, axisCount_of_two_le hx, axisCount_of_two_le hy, axisCount_of_one hx, axisCount_of_one hy,
    fun hW hH => ?_, fun hW hH => ?_, fun hH hW => ?_, fun hW hH => ?_⟩
  · rw [hcount, axisCount_of_two_le hx hW, axisCount_of_two_le hy hH]
    by_cases hxend : x = 0 ∨ x = cfg.W - 1 <;> by_cases hyend : y = 0 ∨ y = cfg.H - 1 <;> simp [hxend, hyend]
  · rw [hcount, axisCount_of_one hx hW, axisCount_of_two_le hy hH]
    split <;> rfl
  · rw [hcount, axisCount_of_two_le hx hW, axisCount_of_one hy hH]
    split <;> rfl
  · rw [hcount, axisCount_of_one hx hW, axisCount_of_one hy hH]

/-! ## The set of neighbours -/

/-- The offsets are the eight steps of at most one along each axis, without the cell itself (R90). -/
theorem mem_offsets {d : Int × Int} :
    d ∈ offsets ↔ (-1 ≤ d.1 ∧ d.1 ≤ 1) ∧ (-1 ≤ d.2 ∧ d.2 ≤ 1) ∧ ¬(d.1 = 0 ∧ d.2 = 0) := by
  obtain ⟨dx, dy⟩ := d
  simp only [offsets, List.mem_cons, Prod.mk.injEq, List.not_mem_nil, or_false]
  omega

theorem adjacent_iff {x y x' y' : Nat} :
    adjacent x y x' y' = true ↔
      (x' ≤ x + 1 ∧ x ≤ x' + 1) ∧ (y' ≤ y + 1 ∧ y ≤ y' + 1) ∧ ¬(x' = x ∧ y' = y) := by
  simp [adjacent, and_assoc, imp_iff_not_or]

/-- A neighbour determines its offset. -/
theorem neighbourAt_inj {cfg : Config} {x y : Nat} {d e : Int × Int} {c : Nat × Nat}
    (hd : neighbourAt cfg x y d = some c) (he : neighbourAt cfg x y e = some c) : d = e := by
  obtain ⟨-, -, hd1, hd2⟩ := neighbourAt_eq_some.1 hd
  obtain ⟨-, -, he1, he2⟩ := neighbourAt_eq_some.1 he
  exact Prod.ext (by omega) (by omega)

/-- The neighbour at some offset is a cell of the grid at that integer distance: no wrap-around and no clamping (R93). -/
theorem exists_neighbourAt_iff {cfg : Config} {x y : Nat} (hx : x < cfg.W) (hy : y < cfg.H) {x' y' : Nat} :
    (∃ d ∈ offsets, neighbourAt cfg x y d = some (x', y')) ↔ x' < cfg.W ∧ y' < cfg.H ∧ adjacent x y x' y' = true := by
  simp only [adjacent_iff, mem_offsets]
  constructor
  · rintro ⟨d, hd, hc⟩
    have hgrid := neighbourAt_in_grid hc
    obtain ⟨-, -, h1, h2⟩ := neighbourAt_eq_some.1 hc
    simp only at hgrid h1 h2
    omega
  · rintro ⟨hx', hy', hadj⟩
    refine ⟨((x' : Int) - x, (y' : Int) - y), by simp only; omega,
      neighbourAt_eq_some.2 ⟨⟨hx, hy⟩, ?_, by simp only; omega, by simp only; omega⟩⟩
    simp only [inb_eq_onAxis, Bool.and_eq_true, onAxis_iff]
    omega

theorem neighbors_of_grid {cfg : Config} {x y : Nat} (hx : x < cfg.W) (hy : y < cfg.H) :
    neighbors cfg x y = some (offsets.filterMap (neighbourAt cfg x y)) := located_eq_some.2 ⟨⟨hx, hy⟩, rfl⟩

/-- There are as many neighbours in the set as bits set in the mask (R92, R97). -/
theorem length_filterMap_neighbourAt (cfg : Config) (x y : Nat) :
    (offsets.filterMap (neighbourAt cfg x y)).length = (existing cfg x y).countP id :=
  List.length_filterMap_eq_countP.trans (countP_offsets_eq cfg x y)

/-- Settles O20: each offset gives its own cell, and the offsets reach exactly the adjacent cells. -/
theorem neighboursAreTheAdjacentCells : Obligations.NeighboursAreTheAdjacentCells := by
  intro cfg x y hx hy
  refine ⟨_, neighbors_of_grid hx hy, ?_, ?_, fun x' y' => ?_⟩
  · exact List.Nodup.filterMap (fun _ _ _ hd he => neighbourAt_inj hd he) (by decide)
  · exact located_eq_some.2 ⟨⟨hx, hy⟩, List.length_filterMap_eq_countP⟩
  · rw [List.mem_filterMap]
    exact exists_neighbourAt_iff hx hy

/-! ## Outside the grid -/

theorem located_isSome {α : Type} {cfg : Config} {x y : Nat} {value : α} :
    (located cfg x y value).isSome = true ↔ x < cfg.W ∧ y < cfg.H := by
  rw [Option.isSome_iff_ne_none, ne_eq, located_eq_none, not_not]

theorem nbrsPayload_isSome {cfg : Config} {x y : Nat} :
    (nbrsPayload cfg x y).isSome = true ↔ x < cfg.W ∧ y < cfg.H := by
  constructor
  · intro h
    by_contra hout
    rw [nbrsPayload, nbrcount, located_eq_none.2 hout] at h
    cases h
  · rintro ⟨hx, hy⟩
    rw [nbrsPayload_of_grid hx hy]
    rfl

/-- NBRS outside the grid, on a live engine: fault entry with COORD_RANGE (R96, R133). -/
theorem exec_nbrs_outside {s : State} {x y : Nat} (hlive : s.fault = false) (hout : ¬(x < s.cfg.W ∧ y < s.cfg.H)) :
    exec (.nbrs x y) s = .next (raiseFault .coordRange s) := by
  rw [exec, execNbrs, coordViolation_some.2 ⟨hout, rfl⟩, perform, violated, if_neg (by simp [hlive])]

/-- Settles O21: every value of the contract stands behind the one guard `located`, and NBRS checks the same operands. -/
theorem locatorHasNoValueOutsideTheGrid : Obligations.LocatorHasNoValueOutsideTheGrid := by
  intro cfg x y
  refine ⟨located_isSome, located_isSome, located_isSome, nbrsPayload_isSome, fun _ => located_isSome, fun d c hc => ?_,
    fun c hc => located_isSome.2 (mem_allCoords.1 hc), ?_⟩
  · obtain ⟨⟨hx, hy⟩, -⟩ := neighbourAt_eq_some.1 hc
    exact ⟨hx, hy, neighbourAt_in_grid hc⟩
  · rintro s rfl hlive hnone
    have hout : ¬(x < s.cfg.W ∧ y < s.cfg.H) := fun hgrid => by simpa [hnone] using nbrsPayload_isSome.2 hgrid
    rw [exec_nbrs_outside hlive hout]
    rfl

/-! ## The response to NBRS -/

/-- The response that carries the count `c` and the mask `m`: status OK and the payload `256·c + m` (R97). -/
def nbrsResponse (c m : Nat) : Word := BitVec.ofNat 32 (256 * c + m)

section
variable {c m : Nat} (hc : c < 16) (hm : m < 256)
include hc hm

theorem toNat_nbrsResponse : (nbrsResponse c m).toNat = 256 * c + m := by
  rw [nbrsResponse, BitVec.toNat_ofNat]
  omega

theorem responseWord_ok_nbrs :
    responseWord .ok ((BitVec.ofNat 4 c ++ BitVec.ofNat 8 m).zeroExtend 28) = nbrsResponse c m := by
  have hpayload : (BitVec.ofNat 4 c ++ BitVec.ofNat 8 m).toNat = 256 * c + m := by
    rw [BitVec.toNat_append, BitVec.toNat_ofNat, BitVec.toNat_ofNat, Nat.mod_eq_of_lt hc, Nat.mod_eq_of_lt hm,
      ← Nat.shiftLeft_add_eq_or_of_lt hm, Nat.shiftLeft_eq, Nat.mul_comm]
  rw [responseWord_ok, BitVec.zeroExtend_eq_setWidth, BitVec.toNat_setWidth, hpayload, nbrsResponse,
    Nat.mod_eq_of_lt (by omega)]

theorem count_field_nbrsResponse : field (nbrsResponse c m) 11 8 = c := by
  rw [field, toNat_nbrsResponse hc hm]
  omega

theorem high_field_nbrsResponse : field (nbrsResponse c m) 31 12 = 0 := by
  rw [field, toNat_nbrsResponse hc hm]
  omega

theorem getLsbD_nbrsResponse {i : Nat} (hi : i < 8) : (nbrsResponse c m).getLsbD i = m.testBit i := by
  rw [BitVec.getLsbD, toNat_nbrsResponse hc hm, Nat.testBit_two_pow_mul_add (i := 8) c hm, if_pos hi]

end

theorem bitsToNat_lt (bits : List Bool) : bitsToNat bits < 2 ^ bits.length := by
  induction bits with
  | nil => exact Nat.one_pos
  | cons b rest ih =>
    have := b.toNat_lt
    rw [bitsToNat, List.length_cons, Nat.pow_succ]
    omega

/-- The mask has the i-th entry as its bit i (R92). -/
theorem testBit_bitsToNat (bits : List Bool) (i : Nat) : (bitsToNat bits).testBit i = bits[i]?.getD false := by
  induction bits generalizing i with
  | nil => simp [bitsToNat]
  | cons b rest ih =>
    have := b.toNat_lt
    cases i with
    | zero => cases b <;> simp [bitsToNat]
    | succ i =>
      rw [bitsToNat, Nat.testBit_succ, show (b.toNat + 2 * bitsToNat rest) / 2 = bitsToNat rest by omega, ih,
        List.getElem?_cons_succ]

theorem length_existing (cfg : Config) (x y : Nat) : (existing cfg x y).length = 8 := List.length_map ..

theorem bitsToNat_existing_lt (cfg : Config) (x y : Nat) : bitsToNat (existing cfg x y) < 256 :=
  (bitsToNat_lt _).trans_eq (by simp [length_existing])

theorem countP_existing_lt (cfg : Config) (x y : Nat) : (existing cfg x y).countP id < 16 :=
  List.countP_le_length.trans_lt (by simp [length_existing])

/-- Bit i of the mask says whether neighbour i exists (R92). -/
theorem testBit_existing {cfg : Config} {x y i : Nat} {d : Int × Int} (hd : offsets[i]? = some d) :
    (bitsToNat (existing cfg x y)).testBit i = (neighbourAt cfg x y d).isSome := by
  rw [testBit_bitsToNat, existing, List.getElem?_map, hd]
  rfl

/-- NBRS of a cell of the grid, on a live engine: the response alone (R97). -/
theorem exec_nbrs_live {s : State} {x y : Nat} (hlive : s.fault = false) (hx : x < s.cfg.W) (hy : y < s.cfg.H) :
    exec (.nbrs x y) s = .next { s with responses := s.responses ++
      [nbrsResponse ((existing s.cfg x y).countP id) (bitsToNat (existing s.cfg x y))] } := by
  rw [exec, execNbrs, coordViolation_none.2 ⟨hx, hy⟩, perform_live _ hlive,
    answerNbrs_of_payload (nbrsPayload_of_grid hx hy), respond, countP_offsets_eq, ← existing,
    responseWord_ok_nbrs (countP_existing_lt ..) (bitsToNat_existing_lt ..)]

/-- Settles O17: the bits of the mask are those of the existing neighbours, and the count is that of the set. -/
theorem nbrsAnswersMaskAndCount : Obligations.NbrsAnswersMaskAndCount := by
  intro s x y hlive hx hy
  have hc := countP_existing_lt s.cfg x y
  have hm := bitsToNat_existing_lt s.cfg x y
  refine ⟨_, exec_nbrs_live hlive hx hy, fun i d hd => ?_, ?_, high_field_nbrsResponse hc hm⟩
  · have hi : i < 8 := (List.getElem?_eq_some_iff.1 hd).1
    rw [getLsbD_nbrsResponse hc hm hi, testBit_existing hd, neighbourAt_isSome hx hy, inb_eq_onAxis, Bool.and_eq_true,
      onAxis_iff, onAxis_iff, and_assoc]
  · rw [neighbors_of_grid hx hy, Option.map_some, length_filterMap_neighbourAt, count_field_nbrsResponse hc hm]

/-- The table of R97, for a cell that is not at both ends of an axis. -/
theorem nbrsResponse_existingBySide {left right top bottom : Bool} (hx : (left || right) = true)
    (hy : (top || bottom) = true) :
    let bits := existingBySide left right top bottom
    nbrsResponse (bits.countP id) (bitsToNat bits) =
      if left = false then (if top = false then 0x3D0#32 else if bottom = false then 0x368#32 else 0x5F8#32)
      else if right = false then (if top = false then 0x316#32 else if bottom = false then 0x30B#32 else 0x51F#32)
      else if top = false then 0x5D6#32 else if bottom = false then 0x56B#32 else 0x8FF#32 := by
  revert left right top bottom
  decide

/-- Settles O18: with three columns and rows a cell is not at both ends of an axis, and the nine other positions are the
table. -/
theorem nbrsMaskByPosition : Obligations.NbrsMaskByPosition := by
  intro s x y hlive hW hH hx hy left right top bottom
  have hxside : (decide (x ≠ 0) || decide (x ≠ s.cfg.W - 1)) = true := by
    simp only [Bool.or_eq_true, decide_eq_true_eq]
    omega
  have hyside : (decide (y ≠ 0) || decide (y ≠ s.cfg.H - 1)) = true := by
    simp only [Bool.or_eq_true, decide_eq_true_eq]
    omega
  rw [exec_nbrs_live hlive hx hy, existing_of_grid hx hy, nbrsResponse_existingBySide hxside hyside]
  simp only [decide_eq_false_iff_not, ne_eq, not_not, left, right, top, bottom]

end Sys2Proof.Machine
end

section
/-! The stepper, the STEP command and its micro-steps (`spec/41_stepper.md`). A generation is decided by the cells of the
front grid alone. A STEP in progress is the state at its acceptance with some cells of the back buffer stored, so a schedule
that has stored every cell once has left the next grid there, in whatever order. -/

namespace Sys2Proof.Machine

/-! ## The successor -/

theorem succState_eq_mod {cfg : Config} {c : Nat} (hc : c < cfg.K) : succState cfg c = (c + 1) % cfg.K := by
  unfold succState
  split
  next hlast => rw [hlast, Nat.mod_self]
  next hne => rw [Nat.mod_eq_of_lt (by omega)]

theorem succState_inj {cfg : Config} {c d : Nat} (h : succState cfg c = succState cfg d) : c = d := by
  unfold succState at h
  split_ifs at h <;> omega

/-- 0 is the successor of the last state, every other state the successor of the one before it. -/
theorem exists_succState_eq {cfg : Config} {d : Nat} (hd : d < cfg.K) : ∃ c, c < cfg.K ∧ succState cfg c = d := by
  cases d with
  | zero => exact ⟨cfg.K - 1, by omega, if_pos (by omega)⟩
  | succ c => exact ⟨c, by omega, if_neg (by omega)⟩

theorem succState_ne_self {cfg : Config} (hK : 2 ≤ cfg.K) (c : Nat) : succState cfg c ≠ c := by
  unfold succState
  split <;> omega

theorem succState_of_one {cfg : Config} (hK : cfg.K = 1) {c : Nat} (hc : c < cfg.K) : succState cfg c = c := by
  unfold succState
  split <;> omega

/-- Settles O25: the successor wraps at K, and only there. -/
theorem successorIsModularBijection : Obligations.SuccessorIsModularBijection := by
  intro cfg
  refine ⟨fun c hc => ⟨succState_eq_mod hc, succState_lt hc⟩, fun c d _ _ => succState_inj, fun d => exists_succState_eq,
    fun hK => ?_, fun hK => succState_of_one hK (by omega)⟩
  simp [succState, hK]

/-! ## The count -/

/-- A neighbour of a cell is a cell of the grid adjacent to it (R92). -/
theorem neighbourAt_adjacent {cfg : Config} {x y : Nat} {d : Int × Int} {c : Nat × Nat} (hd : d ∈ offsets)
    (hc : neighbourAt cfg x y d = some c) : c.1 < cfg.W ∧ c.2 < cfg.H ∧ adjacent x y c.1 c.2 = true := by
  obtain ⟨⟨hx, hy⟩, -⟩ := neighbourAt_eq_some.1 hc
  exact (exists_neighbourAt_iff hx hy).1 ⟨d, hd, hc⟩

/-- The count over the offsets is a count over the set of neighbours (R101). -/
theorem qualifying_eq_countP (cfg : Config) (g : Memory) (x y : Nat) :
    qualifying cfg g x y = (offsets.filterMap (neighbourAt cfg x y)).countP
      (fun c => decide (cellAt g c.1 c.2 = succState cfg (cellAt g x y))) := by
  rw [List.countP_filterMap]
  refine List.countP_congr fun d _ => ?_
  rw [hit_iff]
  cases neighbourAt cfg x y d <;> simp

/-- The set of neighbours is the set of adjacent cells of the grid (R92). -/
theorem perm_neighbours_filter_adjacent {cfg : Config} {x y : Nat} (hx : x < cfg.W) (hy : y < cfg.H) :
    (offsets.filterMap (neighbourAt cfg x y)).Perm ((allCoords cfg).filter fun c => adjacent x y c.1 c.2) := by
  have hnodup : (offsets.filterMap (neighbourAt cfg x y)).Nodup :=
    List.Nodup.filterMap (fun _ _ _ hd he => neighbourAt_inj hd he) (by decide)
  refine (List.perm_ext_iff_of_nodup hnodup ((allCoords_nodup cfg).filter _)).2 fun c => ?_
  rw [List.mem_filterMap, exists_neighbourAt_iff hx hy, List.mem_filter, mem_allCoords, and_assoc]

theorem qualifying_le_eight {cfg : Config} {x y : Nat} (hx : x < cfg.W) (hy : y < cfg.H) (g : Memory) :
    qualifying cfg g x y ≤ 8 :=
  have hcount := nbrcount_of_grid hx hy
  (qualifying_le_nbrcount hcount).trans (nbrcount_le_eight hcount)

/-- Settles O26: the neighbours are the adjacent cells, and the successor of a state below K is the sum modulo K. -/
theorem countIsSetCardinality : Obligations.CountIsSetCardinality := by
  intro cfg g x y hg hx hy
  have hcount := nbrcount_of_grid hx hy
  refine ⟨?_, _, hcount, qualifying_le_nbrcount hcount, nbrcount_le_eight hcount⟩
  rw [qualifying_eq_countP, (perm_neighbours_filter_adjacent hx hy).countP_eq, List.countP_eq_length_filter,
    List.filter_filter, succState_eq_mod (cellAt_lt hg x y)]
  simp only [Bool.and_comm]

/-! ## The next state of a cell -/

theorem cellnext_of_lt {cfg : Config} {g : Memory} {x y : Nat} (h : cfg.T < qualifying cfg g x y) :
    cellnext cfg g x y = succState cfg (cellAt g x y) := by
  simp [cellnext, advances, h]

theorem cellnext_of_le {cfg : Config} {g : Memory} {x y : Nat} (h : qualifying cfg g x y ≤ cfg.T) :
    cellnext cfg g x y = cellAt g x y := by
  simp [cellnext, advances, h]

/-- The next state is the old one or its successor (R110). -/
theorem cellnext_cases (cfg : Config) (g : Memory) (x y : Nat) :
    cellnext cfg g x y = cellAt g x y ∨ cellnext cfg g x y = succState cfg (cellAt g x y) :=
  (Nat.lt_or_ge cfg.T (qualifying cfg g x y)).symm.imp cellnext_of_le cellnext_of_lt

/-- The count of a cell reads the cell and its neighbours (R101). -/
theorem qualifying_congr {cfg : Config} {g g' : Memory} {x y : Nat} (hcell : cellAt g' x y = cellAt g x y)
    (hnbr : ∀ x' y', x' < cfg.W → y' < cfg.H → adjacent x y x' y' = true → cellAt g' x' y' = cellAt g x' y') :
    qualifying cfg g' x y = qualifying cfg g x y := by
  refine List.countP_congr fun d hd => ?_
  rw [hit_iff, hit_iff, hcell]
  refine exists_congr fun c => and_congr_right fun hc => ?_
  obtain ⟨hx', hy', hadj⟩ := neighbourAt_adjacent hd hc
  rw [hnbr _ _ hx' hy' hadj]

/-- The next state of a cell reads the cell and its neighbours (R103). -/
theorem cellnext_congr {cfg : Config} {g g' : Memory} {x y : Nat} (hcell : cellAt g' x y = cellAt g x y)
    (hnbr : ∀ x' y', x' < cfg.W → y' < cfg.H → adjacent x y x' y' = true → cellAt g' x' y' = cellAt g x' y') :
    cellnext cfg g' x y = cellnext cfg g x y := by
  unfold cellnext advances
  rw [qualifying_congr hcell hnbr, hcell]

/-- Settles O27: the two sides of the threshold, and `cellnext_congr`. -/
theorem nextStateIsThresholdedAndLocal : Obligations.NextStateIsThresholdedAndLocal :=
  fun _ _ _ _ _ _ => ⟨cellnext_of_lt, cellnext_of_le, fun _ => cellnext_congr⟩

/-- A neighbour in the cell's own state does not qualify when the cycle has two states (R111). -/
theorem hit_of_same_state {cfg : Config} {g : Memory} {x y : Nat} {d : Int × Int} {c : Nat × Nat} (hK : 2 ≤ cfg.K)
    (hc : neighbourAt cfg x y d = some c) (hsame : cellAt g c.1 c.2 = cellAt g x y) : hit cfg g x y d = false := by
  rw [Bool.eq_false_iff, ne_eq, hit_iff]
  rintro ⟨e, he, hsucc⟩
  obtain rfl := Option.some.inj (hc.symm.trans he)
  exact succState_ne_self hK _ (hsucc.symm.trans hsame)

/-- With one state in the cycle every neighbour qualifies (R111). -/
theorem qualifying_of_one {cfg : Config} {g : Memory} {x y : Nat} (hK : cfg.K = 1) (hg : Memory.within cfg g)
    (hx : x < cfg.W) (hy : y < cfg.H) : nbrcount cfg x y = some (qualifying cfg g x y) := by
  refine located_eq_some.2 ⟨⟨hx, hy⟩, List.countP_congr fun d _ => ?_⟩
  rw [hit_iff, succState_of_one hK (cellAt_lt hg x y), Option.isSome_iff_exists]
  refine exists_congr fun c => and_iff_left ?_
  have h1 := cellAt_lt hg c.1 c.2
  have h2 := cellAt_lt hg x y
  omega

/-- With one state in the cycle a cell keeps it, whatever its count (R111). -/
theorem cellnext_of_one {cfg : Config} {g : Memory} (hK : cfg.K = 1) (hg : Memory.within cfg g) (x y : Nat) :
    cellnext cfg g x y = cellAt g x y :=
  (cellnext_cases cfg g x y).elim id fun h => h.trans (succState_of_one hK (cellAt_lt hg x y))

/-- Settles O30: among neighbours of its own state a cell has count 0 or, when K = 1, is its own successor. -/
theorem stableUnderNoMajority : Obligations.StableUnderNoMajority := by
  intro cfg g x y hg hx hy
  have hzero (h : qualifying cfg g x y = 0) : cellnext cfg g x y = cellAt g x y := cellnext_of_le (by omega)
  refine ⟨fun hK => ⟨succState_ne_self hK _, fun d _ c => hit_of_same_state hK⟩, hzero, fun hsame => ?_⟩
  have hcount (hK : 2 ≤ cfg.K) : qualifying cfg g x y = 0 := by
    refine List.countP_eq_zero.2 fun d hd hhit => ?_
    obtain ⟨c, hc, -⟩ := hit_iff.1 hhit
    obtain ⟨hx', hy', hadj⟩ := neighbourAt_adjacent hd hc
    rw [hit_of_same_state hK hc (hsame _ _ hx' hy' hadj)] at hhit
    cases hhit
  refine ⟨?_, hcount, fun hK => qualifying_of_one hK hg hx hy⟩
  obtain hK | hK := Nat.lt_or_ge cfg.K 2
  · exact cellnext_of_one (by have := cfg.K_range; omega) hg x y
  · exact hzero (hcount hK)

/-! ## The next grid -/

/-- Settles O28: a cell of the next grid is the next state of that cell. -/
theorem stepKeepsTheRange : Obligations.StepKeepsTheRange := by
  intro cfg g hg x y hx hy
  have hcell := cellAt_lt hg x y
  rw [cellAt_stepGrid hg hx hy]
  exact ⟨cellnext_lt hg x y, cellnext_cases cfg g x y, hcell, succState_lt hcell⟩

/-- A key that is no coordinate of the grid is not listed (R21). -/
theorem read_outside_of_within {cfg : Config} {g : Memory} (hg : Memory.within cfg g) {a : Nat}
    (ha : ∀ x y, x < cfg.W → y < cfg.H → a ≠ coordKey x y) : Memory.read g a = unlisted := by
  refine read_of_not_listed fun c hc hkey => ?_
  obtain ⟨hx, hy, -⟩ := hg c hc
  refine ha _ _ hx hy ?_
  unfold coordKey
  omega

/-- Two grids in canonical form that hold the same cells are the same data. -/
theorem eq_of_sameCells {cfg : Config} {g g' : Memory} (hwf : Memory.wf g) (hwf' : Memory.wf g')
    (hg : Memory.within cfg g) (hg' : Memory.within cfg g') (h : sameCells cfg g g') : g = g' := by
  refine wf_ext hwf hwf' fun a => ?_
  by_cases ha : ∀ x y, x < cfg.W → y < cfg.H → a ≠ coordKey x y
  · rw [read_outside_of_within hg ha, read_outside_of_within hg' ha]
  · push Not at ha
    obtain ⟨x, y, hx, hy, rfl⟩ := ha
    exact BitVec.eq_of_toNat_eq (h x y hx hy)

/-- The next grid depends on the cells of the grid alone (R104, R112). -/
theorem stepGrid_congr {cfg : Config} {g g' : Memory} (h : sameCells cfg g g') : stepGrid cfg g = stepGrid cfg g' := by
  refine List.filterMap_congr fun c hc => ?_
  obtain ⟨hx, hy⟩ := mem_allCoords.1 hc
  rw [nextEntry, nextEntry, cellnext_congr (h _ _ hx hy) fun x' y' hx' hy' _ => h x' y' hx' hy']

/-- A grid in which no cell changes is its own next grid. -/
theorem stepGrid_eq_self {cfg : Config} {g : Memory} (hwf : Memory.wf g) (hg : Memory.within cfg g)
    (hstill : ∀ x y, x < cfg.W → y < cfg.H → cellnext cfg g x y = cellAt g x y) : stepGrid cfg g = g :=
  eq_of_sameCells (wf_stepGrid cfg g) hwf (within_stepGrid hg) hg fun x y hx hy =>
    (cellAt_stepGrid hg hx hy).trans (hstill x y hx hy)

/-! ## The atomic STEP -/

theorem State.Inv.wf_front {s : State} (h : s.Inv) : Memory.wf s.front := h.wf_buf s.sel

theorem State.Inv.within_front {s : State} (h : s.Inv) : Memory.within s.cfg s.front := h.within_buf s.sel

/-- STEP on a live engine of the invariant (R105): the next grid in the back buffer, the swap, the response. -/
theorem exec_step_live {s : State} (hinv : s.Inv) (hlive : s.fault = false) :
    exec .step s = .next (respond .ok 0#28 (toggleSel (s.setBuf (!s.sel) (stepGrid s.cfg s.front)))) := by
  rw [exec, execStep, perform_live _ hlive, generation_of_range (statesInRange_of_within hinv.within_front)]

/-- Settles O29: the frame of `setBuf`, `toggleSel` and `respond`, and the cells of the next grid. -/
theorem stepComputesTheNextGeneration : Obligations.StepComputesTheNextGeneration := by
  intro s hinv hlive
  refine ⟨_, exec_step_live hinv hlive, fun x y hx hy => ?_, fun a ha => ?_, ?_⟩
  · rw [respond_buf, toggleSel_buf, setBuf_buf, cellAt_stepGrid hinv.within_front hx hy, front_eq]
  · rw [respond_buf, toggleSel_buf, setBuf_buf, read_stepGrid_outside ha,
      read_outside_of_within (hinv.within_buf (!s.sel)) ha]
  · simp [responseWord_ok]

/-- No cell changes when the threshold is beyond every count, on one cell, and with one state (R102, R105). -/
theorem cellnext_eq_self {cfg : Config} {g : Memory} (hg : Memory.within cfg g)
    (h : 8 ≤ cfg.T ∨ (cfg.W = 1 ∧ cfg.H = 1) ∨ cfg.K = 1) {x y : Nat} (hx : x < cfg.W) (hy : y < cfg.H) :
    cellnext cfg g x y = cellAt g x y := by
  obtain hT | ⟨hW, hH⟩ | hK := h
  · exact cellnext_of_le ((qualifying_le_eight hx hy g).trans hT)
  · have hcount := qualifying_le_nbrcount (g := g) (nbrcount_of_grid hx hy)
    rw [axisCount_of_one hx hW, axisCount_of_one hy hH] at hcount
    exact cellnext_of_le (hcount.trans (Nat.zero_le _))
  · exact cellnext_of_one hK hg x y

/-- Settles O31: the front grid is its own next grid, and the swap exchanges two equal buffers. -/
theorem stepThatChangesNoCellStillToggles : Obligations.StepThatChangesNoCellStillToggles := by
  intro s hinv hlive hcase
  have hsame : stepGrid s.cfg s.front = s.front := stepGrid_eq_self hinv.wf_front hinv.within_front
    fun x y hx hy => cellnext_eq_self hinv.within_front hcase hx hy
  refine ⟨_, exec_step_live hinv hlive, ?_, ?_, ?_⟩ <;> simp [hsame]

/-! ## A group of stored cells -/

theorem SameButBack.refl (s : State) : SameButBack s s := ⟨rfl, rfl, rfl, rfl, rfl, rfl, rfl⟩

/-- Storing a cell of the back buffer keeps every other part of the state (R41). -/
theorem sameButBack_storeCell {s t : State} (h : SameButBack s t) (x y v : Nat) :
    SameButBack s (storeCell (!s.sel) x y v t) := by
  constructor
  case front => rw [front_eq, storeCell_sel, h.sel, storeCell_not_buf, ← h.sel, ← front_eq, h.front]
  all_goals simp [h.cfg, h.sel, h.fault, h.cause, h.inbox, h.responses]

/-- So does storing a group of them (R106). -/
theorem sameButBack_storeGroup {s t : State} (h : SameButBack s t) (group : List (Nat × Nat)) :
    SameButBack s (storeGroup s group t) := by
  induction group generalizing t with
  | nil => exact h
  | cons c rest ih => exact ih (sameButBack_storeCell h _ _ _)

/-- What a group stores is computed from what the micro-steps keep. -/
theorem storeGroup_congr {s t : State} (h : SameButBack s t) : storeGroup t = storeGroup s := by
  funext group u
  rw [storeGroup, h.cfg, h.sel, h.front, storeGroup]

theorem storeGroup_append (s : State) (group group' : List (Nat × Nat)) (t : State) :
    storeGroup s (group ++ group') t = storeGroup s group' (storeGroup s group t) := List.foldl_append

section
variable {s : State} (hfront : Memory.within s.cfg s.front)
include hfront

/-- Storing next states in cells of the grid keeps the invariant (R110). -/
theorem inv_storeGroup {t : State} (ht : t.Inv) (hcfg : t.cfg = s.cfg) {group : List (Nat × Nat)}
    (hin : ∀ c ∈ group, c.1 < s.cfg.W ∧ c.2 < s.cfg.H) : (storeGroup s group t).Inv := by
  induction group generalizing t with
  | nil => exact ht
  | cons c rest ih =>
    obtain ⟨⟨hx, hy⟩, hrest⟩ := List.forall_mem_cons.1 hin
    refine ih (ht.storeCell _ (hcfg ▸ hx) (hcfg ▸ hy) (hcfg ▸ cellnext_lt hfront _ _)) ?_ hrest
    rw [storeCell_cfg, hcfg]

/-- After a group of stores a cell holds its next state if it is in the group, else what it held. -/
theorem cellAt_storeGroup (t : State) {group : List (Nat × Nat)} (hin : ∀ c ∈ group, c.1 < s.cfg.W) {x y : Nat}
    (hx : x < s.cfg.W) : cellAt ((storeGroup s group t).buf (!s.sel)) x y =
      if (x, y) ∈ group then cellnext s.cfg s.front x y else cellAt (t.buf (!s.sel)) x y := by
  have hW := s.cfg.W_range.2
  induction group generalizing t with
  | nil => rfl
  | cons c rest ih =>
    obtain ⟨hc, hrest⟩ := List.forall_mem_cons.1 hin
    have hstep := ih (storeCell (!s.sel) c.1 c.2 (cellnext s.cfg s.front c.1 c.2) t) hrest
    rw [storeCell_buf, cellAt_write _ (by omega) (by omega) (lt_256_of_state (cellnext_lt hfront _ _))] at hstep
    refine hstep.trans ?_
    simp only [List.mem_cons, Prod.ext_iff]
    by_cases hmem : (x, y) ∈ rest
    · simp [hmem]
    · by_cases heq : x = c.1 ∧ y = c.2
      · obtain ⟨rfl, rfl⟩ := heq
        simp
      · simp [hmem, heq]

end

/-- Storing every cell of the grid, in any order, leaves the next grid in the back buffer (R107). -/
theorem storeGroup_all {s : State} (hinv : s.Inv) {group : List (Nat × Nat)} (hall : group.Perm (allCoords s.cfg)) :
    storeGroup s group s = s.setBuf (!s.sel) (stepGrid s.cfg s.front) := by
  have hgrid {c : Nat × Nat} : c ∈ group ↔ c.1 < s.cfg.W ∧ c.2 < s.cfg.H := hall.mem_iff.trans mem_allCoords
  have hkeep := sameButBack_storeGroup (.refl s) group
  have hset := sameButBack_setBuf s (stepGrid s.cfg s.front)
  have hstored : (storeGroup s group s).Inv :=
    inv_storeGroup hinv.within_front hinv rfl fun c hc => hgrid.1 hc
  have hcells : sameCells s.cfg ((storeGroup s group s).buf (!s.sel)) (stepGrid s.cfg s.front) := fun x y hx hy => by
    rw [cellAt_storeGroup hinv.within_front s (fun c hc => (hgrid.1 hc).1) hx, if_pos (hgrid.2 ⟨hx, hy⟩),
      cellAt_stepGrid hinv.within_front hx hy]
  have hback : (storeGroup s group s).buf (!s.sel) = stepGrid s.cfg s.front :=
    eq_of_sameCells (hstored.wf_buf _) (wf_stepGrid _ _) (hkeep.cfg ▸ hstored.within_buf _)
      (within_stepGrid hinv.within_front) hcells
  refine State.ext_front_back (hkeep.cfg.trans hset.cfg.symm) (hkeep.sel.trans hset.sel.symm)
    (hkeep.front.trans hset.front.symm) ?_ (hkeep.fault.trans hset.fault.symm) (hkeep.cause.trans hset.cause.symm)
    (hkeep.inbox.trans hset.inbox.symm) (hkeep.responses.trans hset.responses.symm)
  rw [back_eq, hkeep.sel, hback, setBuf_not_sel_back]

/-! ## A STEP in progress -/

theorem length_allCoords (cfg : Config) : (allCoords cfg).length = cfg.W * cfg.H := by
  simp [allCoords, List.length_flatMap, Nat.mul_comm]

/-- The STEP that `s` accepted has updated the cells `done`, in this order, and no other, and every cell is either done or
pending, once (R106). -/
structure InProgress (s : State) (done : List (Nat × Nat)) (p : StepProgress) : Prop where
  arch : p.arch = storeGroup s done s
  cells : (done ++ p.pending).Perm (allCoords s.cfg)

theorem inProgress_accepted (s : State) : InProgress s [] ⟨s, allCoords s.cfg⟩ := ⟨rfl, .refl _⟩

/-- Cells of a list without repeats, moved to its front. -/
theorem perm_append_filter_not_mem {group l : List (Nat × Nat)} (hgroup : group.Nodup) (hl : l.Nodup)
    (hmem : ∀ c ∈ group, c ∈ l) : (group ++ l.filter (fun c => decide (c ∉ group))).Perm l := by
  have hdisj : group.Disjoint (l.filter (fun c => decide (c ∉ group))) := fun c hc hf => by simp [hc] at hf
  refine (List.perm_ext_iff_of_nodup (hgroup.append (hl.filter _) hdisj) hl).2 fun c => ?_
  simp only [List.mem_append, List.mem_filter, decide_eq_true_eq]
  exact ⟨fun h => h.elim (hmem c) And.left, fun hc => (Decidable.em (c ∈ group)).imp_right fun hn => ⟨hc, hn⟩⟩

namespace InProgress

variable {s : State} {done : List (Nat × Nat)} {p : StepProgress}

theorem keeps (h : InProgress s done p) : SameButBack s p.arch :=
  h.arch ▸ sameButBack_storeGroup (.refl s) done

theorem nodup (h : InProgress s done p) : (done ++ p.pending).Nodup := h.cells.nodup_iff.2 (allCoords_nodup s.cfg)

theorem length_eq (h : InProgress s done p) : done.length + p.pending.length = s.cfg.W * s.cfg.H := by
  rw [← length_allCoords, ← h.cells.length_eq, List.length_append]

theorem pending_in_grid (h : InProgress s done p) {c : Nat × Nat} (hc : c ∈ p.pending) :
    c.1 < s.cfg.W ∧ c.2 < s.cfg.H := mem_allCoords.1 (h.cells.mem_iff.1 (List.mem_append_right done hc))

/-- A group of updates moves its cells from the pending ones to those done. -/
theorem after_cellUpdates (h : InProgress s done p) {group : List (Nat × Nat)} {q : StepProgress}
    (hq : cellUpdates group p = some q) : InProgress s (done ++ group) q := by
  obtain ⟨hgroup, hmem, -, rfl⟩ := cellUpdates_some hq
  constructor
  case arch => rw [storeGroup_congr h.keeps, h.arch, storeGroup_append]
  case cells =>
    have hmoved := perm_append_filter_not_mem hgroup (List.nodup_append.1 h.nodup).2.1 hmem
    rw [List.append_assoc]
    exact (hmoved.append_left done).trans h.cells

theorem after_runSchedule {groups : List (List (Nat × Nat))} {q : StepProgress} (h : InProgress s done p)
    (hq : runSchedule groups p = some q) : InProgress s (done ++ groups.flatten) q := by
  induction groups generalizing done p with
  | nil =>
    obtain rfl := Option.some.inj hq
    simpa using h
  | cons group rest ih =>
    rw [runSchedule] at hq
    split at hq
    next r hr => simpa using ih (h.after_cellUpdates hr) hq
    next => cases hq

theorem microAllowed_arch (h : InProgress s done p) (hinv : s.Inv) (hlive : s.fault = false) :
    microAllowed p.arch = true := by
  refine microAllowed_iff.2 ⟨h.keeps.fault.trans hlive, ?_⟩
  rw [h.keeps.cfg, h.keeps.front]
  exact statesInRange_of_within hinv.within_front

/-- Different pending cells can be updated next (R106). -/
theorem exists_cellUpdates (h : InProgress s done p) (hinv : s.Inv) (hlive : s.fault = false)
    {group : List (Nat × Nat)} (hgroup : group.Nodup) (hmem : ∀ c ∈ group, c ∈ p.pending) :
    ∃ q, cellUpdates group p = some q := by
  have hfront : Memory.within p.arch.cfg p.arch.front := by
    rw [h.keeps.cfg, h.keeps.front]
    exact hinv.within_front
  have hin : ∀ c ∈ group, c.1 < p.arch.cfg.W ∧ c.2 < p.arch.cfg.H := fun c hc => by
    rw [h.keeps.cfg]
    exact h.pending_in_grid (hmem c hc)
  rw [cellUpdates, if_pos ⟨hgroup, hmem, h.microAllowed_arch hinv hlive⟩, writeGroup_of_range rfl hin hfront]
  exact ⟨_, rfl⟩

/-- The swap is possible exactly when nothing is pending (R106). -/
theorem swapMicro_isSome (h : InProgress s done p) (hinv : s.Inv) (hlive : s.fault = false) :
    (swapMicro p).isSome = true ↔ p.pending = [] := by
  simp [swapMicro, h.microAllowed_arch hinv hlive]

/-- The swap after the last update ends in the state of the atomic STEP (R107). -/
theorem exec_step_of_swapMicro (h : InProgress s done p) (hinv : s.Inv) (hlive : s.fault = false) {t : State}
    (ht : swapMicro p = some t) : exec .step s = .next t := by
  obtain ⟨hpending, -, rfl⟩ := swapMicro_some ht
  have hall : done.Perm (allCoords s.cfg) := by simpa [hpending] using h.cells
  rw [exec_step_live hinv hlive, h.arch, storeGroup_all hinv hall]

/-- The cells that are left can be updated one at a time, in any order, until nothing is pending (R106). -/
theorem exists_runSchedule_singles (h : InProgress s done p) (hinv : s.Inv) (hlive : s.fault = false)
    {order : List (Nat × Nat)} (horder : order.Perm p.pending) :
    ∃ q, runSchedule (order.map fun c => [c]) p = some q ∧ q.pending = [] := by
  induction order generalizing done p with
  | nil => exact ⟨p, rfl, horder.symm.eq_nil⟩
  | cons c rest ih =>
    obtain ⟨q, hq⟩ := h.exists_cellUpdates hinv hlive (List.nodup_singleton c) fun d hd =>
      List.mem_singleton.1 hd ▸ horder.mem_iff.1 List.mem_cons_self
    have hnext := h.after_cellUpdates hq
    have hsame : (done ++ ([c] ++ q.pending)).Perm (done ++ (c :: rest)) := by
      rw [← List.append_assoc]
      exact hnext.cells.trans (h.cells.symm.trans (horder.symm.append_left done))
    have hrest : rest.Perm q.pending := ((List.perm_append_left_iff done).1 hsame).cons_inv.symm
    rw [List.map_cons, runSchedule, hq]
    exact ih hnext hrest

end InProgress

/-- What a schedule makes of a STEP: its cells are done, in its order. -/
theorem inProgress_of_scheduleStep {s : State} {groups : List (List (Nat × Nat))} {p : StepProgress}
    (h : scheduleStep groups s = some p) : InProgress s groups.flatten p :=
  (inProgress_accepted s).after_runSchedule (scheduleStep_eq_some.1 h).2

/-- Settles O34: with nothing pending every cell has been stored once, and each order of the cells runs to that point. -/
theorem everyScheduleEndsInTheAtomicStep : Obligations.EveryScheduleEndsInTheAtomicStep := by
  refine ⟨fun s groups p hinv hlive hp hpending => ?_, fun s order hinv hlive horder => ?_⟩
  · have hprog := inProgress_of_scheduleStep hp
    obtain ⟨t, ht⟩ := Option.isSome_iff_exists.1 ((hprog.swapMicro_isSome hinv hlive).2 hpending)
    exact ⟨t, ht, hprog.exec_step_of_swapMicro hinv hlive ht⟩
  · obtain ⟨p, hp, hpending⟩ := (inProgress_accepted s).exists_runSchedule_singles hinv hlive horder
    exact ⟨p, scheduleStep_eq_some.2 ⟨hlive, hp⟩, hpending⟩

/-- Settles O32: the next grid reads the cells of the front grid, and a schedule ends as the atomic STEP does. -/
theorem stepIsDeterminedByTheFrontGrid : Obligations.StepIsDeterminedByTheFrontGrid := by
  intro s s' hinv hinv' hlive hlive' hcfg hsame
  have hgrid : stepGrid s.cfg s.front = stepGrid s'.cfg s'.front := hcfg ▸ stepGrid_congr hsame
  have hexec' := exec_step_live hinv' hlive'
  refine ⟨_, _, exec_step_live hinv hlive, hexec', ?_, fun groups p u hp hu => ?_⟩
  · simpa using hgrid
  · have hu' := (inProgress_of_scheduleStep hp).exec_step_of_swapMicro hinv' hlive' hu
    obtain rfl := Host.Outcome.next.inj (hexec'.symm.trans hu')
    simpa using hgrid.symm

/-- Settles O35: acceptance asks for `FAULT = 0`, and so does every micro-step. -/
theorem onlyALiveEngineAcceptsAStep : Obligations.OnlyALiveEngineAcceptsAStep := by
  intro s
  refine ⟨fun hlive => ?_, fun hfault => ⟨fun groups => ?_, fun pending group => ⟨?_, ?_⟩, ?_⟩⟩
  · exact ⟨_, acceptStep_eq_some.2 ⟨hlive, rfl⟩, rfl, allCoords_nodup s.cfg, length_allCoords s.cfg,
      fun x y => mem_allCoords⟩
  · rw [scheduleStep, acceptStep, if_pos hfault, Option.bind_none]
  · simp [cellUpdates, microAllowed, hfault]
  · simp [swapMicro, microAllowed, hfault]
  · rw [exec, execStep, perform_faulted _ _ hfault, refuse, respond, responseWord_faulted]

/-- Settles O36: the fields of `InProgress`; the swap waits until the cells done are all W·H. -/
theorem stepInProgressKeepsTheSnapshotAndEnds : Obligations.StepInProgressKeepsTheSnapshotAndEnds := by
  intro s groups p hp
  have hlive := (scheduleStep_eq_some.1 hp).1
  have hprog := inProgress_of_scheduleStep hp
  have hlength := hprog.length_eq
  obtain ⟨hcfg, hsel, hfront, hfault, hcause, hinbox, hresponses⟩ := hprog.keeps
  refine ⟨?_, hsel, hfault, hcause, hcfg, hinbox, hresponses, by omega, (List.nodup_append.1 hprog.nodup).1,
    fun hinv => ⟨fun x y hxy => ?_, ?_⟩⟩
  · rwa [front_eq, front_eq, hsel] at hfront
  · obtain ⟨q, hq⟩ := hprog.exists_cellUpdates hinv hlive (List.nodup_singleton (x, y)) (by simpa using hxy)
    have hlength' := (hprog.after_cellUpdates hq).length_eq
    rw [List.length_append, List.length_singleton] at hlength'
    exact ⟨q, hq, by omega⟩
  · rw [hprog.swapMicro_isSome hinv hlive, ← List.length_eq_zero_iff]
    omega

end Sys2Proof.Machine
end

section
/-! The commands that access the grid and the registers, each as its exact next state, and the driver's procedures SEED, DUMP
and RUN (`spec/42_grid_access.md` R120 to R125). -/

namespace Sys2Proof.Machine

/-! ## Registers -/

/-- RDREG of a defined register adds the response that carries its value, and changes nothing else (R122). -/
theorem exec_rdreg_ofNat {r n : Nat} {s : State} (h : readRegister r s = some (BitVec.ofNat 28 n)) (hn : n < 2 ^ 28) :
    exec (.rdreg r) s = .next { s with responses := s.responses ++ [BitVec.ofNat 32 n] } := by
  rw [exec_rdreg h, respond, responseWord_ok, BitVec.toNat_ofNat, Nat.mod_eq_of_lt hn]

/-- STATUS is the number of its three fields (R27). -/
theorem statusRegister_eq_ofNat (s : State) :
    statusRegister s = BitVec.ofNat 28 (s.sel.toNat + 2 * s.fault.toNat + 4 * s.cause.code.toNat) := by
  rw [← statusRegister_toNat, BitVec.ofNat_toNat, BitVec.setWidth_eq]

/-- Settles O12: every value of a register is far below `2 ^ 28`, so its response is that number. -/
theorem rdregAnswersTheRegister : Obligations.RdregAnswersTheRegister := by
  intro s
  have hsel := s.sel.toNat_le
  have hfault := s.fault.toNat_le
  have hcause := s.cause.code_le
  have hW := s.cfg.W_range
  have hH := s.cfg.H_range
  have hK := s.cfg.K_range
  have hT := s.cfg.T_range
  exact ⟨exec_rdreg_ofNat (congrArg some (statusRegister_eq_ofNat s)) (by omega), exec_rdreg_ofNat rfl (by omega),
    exec_rdreg_ofNat rfl (by omega), exec_rdreg_ofNat rfl (by omega), exec_rdreg_ofNat rfl (by omega)⟩

/-! ## Cells -/

/-- The response of a command that has nothing to report. -/
theorem responseWord_ok_zero : responseWord .ok 0#28 = 0x00000000#32 := by decide

/-- Settles O8: the frame of `storeCell`, whose one key is that of the coordinate. -/
theorem wrcellWritesOneCell : Obligations.WrcellWritesOneCell := by
  intro s x y v hlive hx hy hv
  refine ⟨_, exec_wrcell_live hlive hx hy hv, ?_, fun a ha => ?_, ?_⟩
  · rw [respond_buf, storeCell_buf, cellAt_write_same _ _ _ _ (lt_256_of_state hv)]
  · rw [respond_buf, storeCell_buf, read_write_other _ ha]
  · simp [responseWord_ok_zero]

/-- Settles O10: the one read that RDCELL makes, of a stored state that the invariant keeps in the cycle. -/
theorem rdcellAnswersTheFrontCell : Obligations.RdcellAnswersTheFrontCell := by
  intro s x y hinv hlive hx hy
  refine ⟨cellAt_lt hinv.within_front x y, ?_⟩
  rw [exec_rdcell_live hinv hlive hx hy, respond, responseWord_ok_cell]

/-! ## Two writes -/

/-- Of two writes under one key the later one remains. -/
theorem write_write_same {m : Memory} (h : Memory.wf m) (k : Nat) (v u : CellByte) :
    Memory.write (Memory.write m k v) k u = Memory.write m k u := by
  refine wf_ext (wf_write (wf_write h k v) k u) (wf_write h k u) fun a => ?_
  by_cases ha : a = k
  · rw [ha, read_write_same, read_write_same]
  · rw [read_write_other _ ha, read_write_other _ ha, read_write_other _ ha]

theorem setBuf_setBuf (b : Bool) (m m' : Memory) (s : State) : (s.setBuf b m).setBuf b m' = s.setBuf b m' := by
  cases b <;> rfl

/-- A response does not come in the way of a store. -/
theorem storeCell_respond (b : Bool) (x y v : Nat) (st : Status) (p : Payload) (s : State) :
    storeCell b x y v (respond st p s) = respond st p (storeCell b x y v s) := by
  cases b <;> rfl

/-- Two stores in one buffer are the two writes of that buffer. -/
theorem storeCell_storeCell (b : Bool) (x y v x' y' v' : Nat) (s : State) :
    storeCell b x' y' v' (storeCell b x y v s) =
      s.setBuf b (Memory.write (Memory.write (s.buf b) (coordKey x y) (BitVec.ofNat 8 v)) (coordKey x' y')
        (BitVec.ofNat 8 v')) := by
  rw [storeCell, storeCell_buf, storeCell, setBuf_setBuf]

/-- A WRCELL within its ranges after another one, on a live engine: both stores in the front buffer, then both responses. -/
theorem exec_wrcell_wrcell {s : State} {x y v x' y' v' : Nat} (hlive : s.fault = false) (hx' : x' < s.cfg.W)
    (hy' : y' < s.cfg.H) (hv' : v' < s.cfg.K) :
    exec (.wrcell x' y' v') (respond .ok 0#28 (storeCell s.sel x y v s)) =
      .next (respond .ok 0#28 (respond .ok 0#28 (storeCell s.sel x' y' v' (storeCell s.sel x y v s)))) := by
  rw [exec_wrcell_live (by simpa using hlive) (by simpa using hx') (by simpa using hy') (by simpa using hv'),
    storeCell_respond, respond_sel, storeCell_sel]

/-- Settles O9: writes under different keys commute, and under one key the later one remains. -/
theorem writesCommuteAndTheLaterWins : Obligations.WritesCommuteAndTheLaterWins := by
  intro s x y v x' y' v' hinv hlive hx hy hv hx' hy' hv'
  have hwf := hinv.wf_buf s.sel
  refine ⟨fun hne => ?_, ?_⟩
  · have hW := s.cfg.W_range.2
    have hkey : coordKey x y ≠ coordKey x' y' :=
      fun h => hne (Prod.ext_iff.2 ((coordKey_inj (by omega) (by omega)).1 h))
    refine ⟨_, _, _, exec_wrcell_live hlive hx hy hv, exec_wrcell_wrcell hlive hx' hy' hv',
      exec_wrcell_live hlive hx' hy' hv', (exec_wrcell_wrcell hlive hx hy hv).trans ?_⟩
    rw [storeCell_storeCell, storeCell_storeCell, write_comm hwf hkey]
  · refine ⟨_, _, _, exec_wrcell_live hlive hx hy hv, exec_wrcell_wrcell hlive hx hy hv',
      exec_wrcell_live hlive hx hy hv', ?_⟩
    rw [storeCell_storeCell, write_write_same hwf, storeCell, respond, responseWord_ok_zero]

/-! ## The driver's procedures -/

/-- The word of a well-formed command, as the next word of a sequence, executes that command. -/
theorem thenWord_encode {i : Instr} (hi : i.wf = true) (s : State) : thenWord (.next s) (encode i) = exec i s :=
  runWord_of_decode (decode_encode hi) s

section
variable {α : Type} {command : α → Instr} {Done : List α → State → Prop}

/-- A sequence of commands, each of which completes and extends what has been done, completes with all of it done. -/
theorem foldl_thenWord_completes {s : State} {l : List α} (hwf : ∀ a ∈ l, (command a).wf = true) (hstart : Done [] s)
    (hnext : ∀ a ∈ l, ∀ (done : List α) (t : State), Done done t →
      ∃ u, exec (command a) t = .next u ∧ Done (done ++ [a]) u) :
    ∃ t, ((l.map command).map encode).foldl thenWord (.next s) = .next t ∧ Done l t := by
  induction l using List.reverseRecOn with
  | nil => exact ⟨s, rfl, hstart⟩
  | append_singleton l a ih =>
    obtain ⟨t, hfold, hdone⟩ := ih (fun b hb => hwf b (by simp [hb])) (fun b hb => hnext b (by simp [hb]))
    obtain ⟨u, hexec, hdone'⟩ := hnext a (by simp) l t hdone
    refine ⟨u, ?_, hdone'⟩
    simp only [List.map_append, List.foldl_append, hfold, List.map_cons, List.map_nil, List.foldl_cons, List.foldl_nil]
    rw [thenWord_encode (hwf a (by simp)), hexec]

/-- The same for the steps of a host that sends the commands: by `runSteps_commands` no command sees the later ones, so
`Done` speaks of states with nothing more to come. -/
theorem runSteps_completes {s : State} {l : List α} (hinv : s.Inv)
    (hin : s.inbox = commandsOf ((l.map command).map encode)) (hwf : ∀ a ∈ l, (command a).wf = true)
    (hstart : Done [] { s with inbox := [] })
    (hnext : ∀ a ∈ l, ∀ (done : List α) (t : State), Done done t →
      ∃ u, exec (command a) t = .next u ∧ Done (done ++ [a]) u) :
    ∃ t, runSteps l.length s = .next t ∧ Done l t := by
  have hrun := runSteps_commands hinv hin
  rw [List.length_map, List.length_map] at hrun
  rw [hrun]
  exact foldl_thenWord_completes hwf hstart hnext

end

/-! ### RUN -/

/-- The state `t` is `n` generations after `s` (R125). -/
structure Generations (s : State) (n : Nat) (t : State) : Prop where
  inv : t.Inv
  live : t.fault = false
  cfg : t.cfg = s.cfg
  front : t.front = (stepGrid s.cfg)^[n] s.front
  sel : t.sel = if n % 2 = 0 then s.sel else !s.sel
  responses : t.responses = s.responses ++ List.replicate n 0x00000000#32

/-- One more STEP is one more generation. -/
theorem Generations.exec_step {s t : State} {n : Nat} (h : Generations s n t) :
    ∃ u, exec .step t = .next u ∧ Generations s (n + 1) u := by
  have hinv := h.inv.setBuf (!t.sel) (wf_stepGrid t.cfg t.front) (within_stepGrid h.inv.within_front)
  refine ⟨_, exec_step_live h.inv h.live, hinv.toggleSel.respond _ _, by simpa using h.live, by simpa using h.cfg,
    ?_, ?_, ?_⟩
  · rw [respond_front, toggleSel_front, setBuf_not_sel_back, h.cfg, h.front, Function.iterate_succ_apply']
  · rw [respond_sel, toggleSel_sel, setBuf_sel, h.sel]
    obtain hn | hn := Nat.mod_two_eq_zero_or_one n <;> simp [Nat.add_mod, hn]
  · rw [respond_responses, toggleSel_responses, setBuf_responses, h.responses, responseWord_ok_zero,
      List.replicate_succ', List.append_assoc]

/-- Settles O33: `Generations` along the STEPs that have been taken. -/
theorem repeatedStepsIterateTheStepFunction : Obligations.RepeatedStepsIterateTheStepFunction := by
  intro n s hinv hlive hin
  have hlen : (runCommands n).length = n := List.length_replicate
  obtain ⟨t, hrun, hdone⟩ := runSteps_completes (command := id) (l := runCommands n)
    (Done := fun done => Generations s done.length) hinv (by rwa [List.map_id])
    (fun i hi => by rw [List.eq_of_mem_replicate hi]; rfl)
    ⟨hinv.withLists [] s.responses, hlive, rfl, rfl, rfl, (List.append_nil _).symm⟩
    (fun i hi done t ht => by
      rw [List.eq_of_mem_replicate hi, List.length_append]
      exact ht.exec_step)
  rw [hlen] at hrun hdone
  exact ⟨t, hrun, hdone.front, hdone.sel, hdone.responses⟩

/-! ### SEED -/

/-- The state `t` is `s` in which the cells `done` of the front buffer have been written with the grid `g` (R123). -/
structure Seeded (s : State) (g : Nat → Nat → Nat) (done : List (Nat × Nat)) (t : State) : Prop where
  cfg : t.cfg = s.cfg
  fault : t.fault = s.fault
  sel : t.sel = s.sel
  back : t.back = s.back
  cells : ∀ x y, x < s.cfg.W → (x, y) ∈ done → cellAt t.front x y = g x y
  responses : t.responses = s.responses ++ List.replicate done.length 0x00000000#32

/-- One more WRCELL is one more cell of the grid; a cell written before keeps its state. -/
theorem Seeded.exec_wrcell {s t : State} {g : Nat → Nat → Nat} {done : List (Nat × Nat)} (h : Seeded s g done t)
    (hlive : s.fault = false) {x y : Nat} (hx : x < s.cfg.W) (hy : y < s.cfg.H) (hg : g x y < s.cfg.K) :
    ∃ u, exec (.wrcell x y (g x y)) t = .next u ∧ Seeded s g (done ++ [(x, y)]) u := by
  have hW := s.cfg.W_range.2
  refine ⟨_, exec_wrcell_live (h.fault.trans hlive) (h.cfg ▸ hx) (h.cfg ▸ hy) (h.cfg ▸ hg), by simpa using h.cfg,
    by simpa using h.fault, by simpa using h.sel, ?_, fun x' y' hx' hmem => ?_, ?_⟩
  · rw [respond_back, storeCell, setBuf_sel_back, h.back]
  · rw [respond_front, storeCell_front rfl, cellAt_write _ (by omega) (by omega) (lt_256_of_state hg)]
    split
    next heq => rw [heq.1, heq.2]
    next hne =>
      refine h.cells x' y' hx' ((List.mem_append.1 hmem).resolve_right fun hlast => hne ?_)
      exact Prod.mk.inj (List.mem_singleton.1 hlast)
  · simp [h.responses, responseWord_ok_zero, List.replicate_succ']

/-- Settles O54: `Seeded` along the WRCELLs that have been taken, which are those of all cells. -/
theorem seedEstablishesTheGrid : Obligations.SeedEstablishesTheGrid := by
  intro s g hinv hlive hg hin
  obtain ⟨t, hrun, hdone⟩ := runSteps_completes (l := allCoords s.cfg) (Done := Seeded s g) hinv hin
    (fun c hc => by
      obtain ⟨hx, hy⟩ := mem_allCoords.1 hc
      simp [Instr.wf, fitsTen_of_grid hx hy, fitsEight_iff.2 (lt_256_of_state (hg _ _ hx hy))])
    ⟨rfl, rfl, rfl, rfl, by simp, (List.append_nil _).symm⟩
    (fun c hc done t ht => by
      obtain ⟨hx, hy⟩ := mem_allCoords.1 hc
      exact ht.exec_wrcell hlive hx hy (hg _ _ hx hy))
  rw [← length_allCoords]
  exact ⟨t, hrun, hdone.fault.trans hlive, hdone.sel, hdone.back,
    fun x y hx hy => hdone.cells x y hx (mem_allCoords.2 ⟨hx, hy⟩), hdone.responses⟩

/-! ### DUMP -/

/-- The state `s` once the cells `done` of the front buffer have been read and nothing more is to come (R124). -/
def dumped (s : State) (done : List (Nat × Nat)) : State :=
  { s with inbox := [], responses := s.responses ++ done.map fun c => BitVec.ofNat 32 (cellAt s.front c.1 c.2) }

/-- One more RDCELL is one more cell read. -/
theorem exec_rdcell_dumped {s : State} (hinv : s.Inv) (hlive : s.fault = false) {x y : Nat} (hx : x < s.cfg.W)
    (hy : y < s.cfg.H) (done : List (Nat × Nat)) :
    exec (.rdcell x y) (dumped s done) = .next (dumped s (done ++ [(x, y)])) := by
  have hfront : (dumped s done).front = s.front := rfl
  rw [(rdcellAnswersTheFrontCell (dumped s done) x y (hinv.withLists _ _) hlive hx hy).2, hfront]
  simp [dumped]

/-- Settles O55: `dumped` along the RDCELLs that have been taken, which are those of all cells in their order. -/
theorem dumpReadsOneGeneration : Obligations.DumpReadsOneGeneration := by
  intro s hinv hlive hin
  obtain ⟨t, hrun, rfl⟩ := runSteps_completes (l := allCoords s.cfg) (Done := fun done t => t = dumped s done) hinv hin
    (fun c hc => by
      obtain ⟨hx, hy⟩ := mem_allCoords.1 hc
      simp [Instr.wf, fitsTen_of_grid hx hy])
    (by simp [dumped])
    (fun c hc done t ht => by
      obtain ⟨hx, hy⟩ := mem_allCoords.1 hc
      exact ⟨_, ht ▸ exec_rdcell_dumped hinv hlive hx hy done, rfl⟩)
  rw [← length_allCoords]
  exact ⟨_, hrun, rfl, rfl⟩

end Sys2Proof.Machine
end

section
/-! The faults, the faulted state and the absence of stops (`spec/60_exceptions.md`). What R74 finds in a word decides the
step: a violation of any word, a legal word on a live engine, and a legal word on a faulted one are the three cases. -/

namespace Sys2Proof.Machine

/-! ## Fault entry and the refusal as next states -/

theorem violated_live (c : Cause) {s : State} (hlive : s.fault = false) : violated c s = raiseFault c s := by
  rw [violated, if_neg (by simp [hlive])]

theorem violated_faulted (c : Cause) {s : State} (hfault : s.fault = true) : violated c s = refuse s := by
  rw [violated, if_pos hfault]

/-- Fault entry, field by field (R137). -/
theorem raiseFault_eq (c : Cause) (s : State) :
    raiseFault c s = { s with fault := true, cause := c,
                              responses := s.responses ++ [BitVec.ofNat 32 (c.code.toNat * 2 ^ 28)] } := by
  rw [raiseFault, respond, responseWord_raised]
  rfl

/-- The refusal of a faulted engine, field by field (R138). -/
theorem refuse_eq (s : State) : refuse s = { s with responses := s.responses ++ [0x70000000#32] } := by
  rw [refuse, respond, responseWord_faulted]

/-! ## The step that R74 decides -/

theorem operandViolation_rdreg_none {cfg : Config} {r : Nat} : operandViolation cfg (.rdreg r) = none ↔ r < 5 := by
  simp [operandViolation]

theorem checkOperands_eq_viol {cfg : Config} {i : Instr} {c : Cause} :
    checkOperands cfg i = .viol c ↔ operandViolation cfg i = some c := by
  unfold checkOperands
  cases operandViolation cfg i <;> simp

theorem checkOperands_eq_legal {cfg : Config} {i j : Instr} :
    checkOperands cfg i = .legal j ↔ i = j ∧ operandViolation cfg i = none := by
  unfold checkOperands
  cases operandViolation cfg i <;> simp

/-- The causes that R74 finds: a word without a form, or an operand check of the command it decodes to. -/
theorem verdict_eq_viol {cfg : Config} {w : Word} {c : Cause} (h : verdict cfg w = .viol c) :
    (∃ r, decode w = .error r ∧ c = .illegalCmd) ∨ (∃ i, decode w = .ok i ∧ operandViolation cfg i = some c) := by
  cases hd : decode w with
  | error r => exact .inl ⟨r, rfl, (Verdict.viol.inj ((verdict_of_error hd).symm.trans h)).symm⟩
  | ok i => exact .inr ⟨i, rfl, checkOperands_eq_viol.1 ((verdict_of_decode hd).symm.trans h)⟩

/-- A word that R74 finds legal decodes to that command, whose operand checks find nothing. -/
theorem verdict_eq_legal {cfg : Config} {w : Word} {i : Instr} (h : verdict cfg w = .legal i) :
    decode w = .ok i ∧ operandViolation cfg i = none := by
  cases hd : decode w with
  | error r => exact Verdict.noConfusion ((verdict_of_error hd).symm.trans h)
  | ok j =>
    obtain ⟨rfl, hnone⟩ := checkOperands_eq_legal.1 ((verdict_of_decode hd).symm.trans h)
    exact ⟨rfl, hnone⟩

theorem verdict_viol_ne_none {cfg : Config} {w : Word} {c : Cause} (h : verdict cfg w = .viol c) : c ≠ .none := by
  obtain ⟨-, -, rfl⟩ | ⟨i, -, hc⟩ := verdict_eq_viol h
  · simp
  · obtain rfl | rfl | rfl := operandViolation_cause hc <;> simp

/-- A guarded command whose operand check fails is a violation, faulted or not. -/
theorem perform_of_violation {v : Option Cause} {c : Cause} (h : v = some c)
    (f : State → Host.Outcome State Fault Refusal) (s : State) : perform v f s = .next (violated c s) := by
  rw [h, perform]

/-- A command whose operand check fails is a violation, faulted or not. -/
theorem exec_of_violation {i : Instr} {s : State} {c : Cause} (h : operandViolation s.cfg i = some c) :
    exec i s = .next (violated c s) := by
  cases i with
  | wrcell x y v => exact perform_of_violation h (writeFront x y v) s
  | rdcell x y => exact perform_of_violation h (readFront x y) s
  | step => cases h
  | nbrs x y => exact perform_of_violation h (answerNbrs x y) s
  | rdreg r =>
    rw [operandViolation] at h
    split at h
    · cases h
    next hr =>
      obtain rfl := Option.some.inj h
      rw [exec, execRdreg, readRegister_none.2 (Nat.not_lt.1 hr)]

/-- A word in which R74 finds a violation does nothing else than that violation. -/
theorem runWord_of_viol {w : Word} {s : State} {c : Cause} (h : verdict s.cfg w = .viol c) :
    runWord w s = .next (violated c s) := by
  obtain ⟨r, hr, rfl⟩ | ⟨i, hi, hc⟩ := verdict_eq_viol h
  · rw [runWord, hr]
  · rw [runWord_of_decode hi, exec_of_violation hc]

/-- A command that a live engine finds legal is executed, if it answers a next state (R141). -/
theorem executed_of_legal {i : Instr} {s t : State} (hlive : s.fault = false) (hlegal : operandViolation s.cfg i = none)
    (h : exec i s = .next t) : Executed s t := by
  obtain ⟨c, hc, -⟩ | ⟨hfault, -⟩ | hex := exec_answers h
  · simp [hlegal] at hc
  · simp [hlive] at hfault
  · exact hex

/-! ## Fault entry -/

/-- On a live engine a failed operand check of a command is fault entry with its cause (R137). -/
theorem exec_raises {i : Instr} {s : State} {c : Cause} (hlive : s.fault = false)
    (h : operandViolation s.cfg i = some c) : exec i s = .next (raiseFault c s) := by
  rw [exec_of_violation h, violated_live c hlive]

/-- On a live engine a word in which R74 finds a violation is fault entry with its cause (R137). -/
theorem runWord_raises {w : Word} {s : State} {c : Cause} (hlive : s.fault = false) (h : verdict s.cfg w = .viol c) :
    runWord w s = .next (raiseFault c s) := by
  rw [runWord_of_viol h, violated_live c hlive]

/-- Settles O37: a violation is fault entry, and a legal word is executed with the FAULT it found. -/
theorem faultEntryIsPrecise : Obligations.FaultEntryIsPrecise := by
  intro s w rest hin hlive
  rw [step_command hin]
  refine ⟨fun c hc => ⟨verdict_viol_ne_none hc, ?_⟩, fun t h hfault => ?_⟩
  · rw [runWord_raises (s := { s with inbox := rest }) hlive hc, raiseFault_eq]
  · cases hv : verdict s.cfg w with
    | viol c => exact ⟨c, rfl⟩
    | legal i =>
      obtain ⟨hi, hlegal⟩ := verdict_eq_legal hv
      rw [runWord_of_decode hi] at h
      have hkept := (executed_of_legal (s := { s with inbox := rest }) hlive hlegal h).fault
      simp [hfault, hlive] at hkept

/-- Settles O38: under the invariant every command completes, and a legal one is executed with the flags it found. -/
theorem legalCommandsNeverFault : Obligations.LegalCommandsNeverFault := by
  intro s w rest i hinv hin hlive hv
  obtain ⟨hi, hlegal⟩ := verdict_eq_legal hv
  obtain ⟨t, ht, -⟩ := exec_completesInv i (hinv.withLists rest s.responses)
  have hex := executed_of_legal (s := { s with inbox := rest }) hlive hlegal ht
  refine ⟨t, ?_, ht, hex.fault.trans hlive, hex.cause.trans (hinv.cause_iff.2 hlive)⟩
  rw [step_command hin, runWord_of_decode hi, ht]

/-- Settles O14: fault entry from the operand check of RDREG. -/
theorem reservedRegisterRaisesRegRange : Obligations.ReservedRegisterRaisesRegRange := by
  intro s r hlive hr
  have hreg : operandViolation s.cfg (.rdreg r) = some .regRange := if_neg (Nat.not_lt.2 hr)
  rw [exec_raises hlive hreg, raiseFault_eq]
  rfl

/-- Settles O15: fault entry from the coordinate check, which WRCELL makes before that of the state. -/
theorem outsideCoordinateRaisesCoordRange : Obligations.OutsideCoordinateRaisesCoordRange := by
  intro s x y v hlive hout t
  have hgrid : ¬(x < s.cfg.W ∧ y < s.cfg.H) := by omega
  have hcoord : coordViolation s.cfg x y = some .coordRange := coordViolation_some.2 ⟨hgrid, rfl⟩
  have hwrcell : wrcellViolation s.cfg x y v = some .coordRange := by rw [wrcellViolation_eq, if_pos hgrid]
  have ht : t = raiseFault .coordRange s := (raiseFault_eq .coordRange s).symm
  rw [ht]
  exact ⟨exec_raises hlive hwrcell, exec_raises hlive hcoord, exec_raises hlive hcoord⟩

/-- Settles O16: fault entry from the state check of WRCELL, once the coordinate check has passed. -/
theorem outsideStateRaisesStateRange : Obligations.OutsideStateRaisesStateRange := by
  intro s x y v hlive hx hy hv
  have hstate : operandViolation s.cfg (.wrcell x y v) = some .stateRange := by
    rw [operandViolation, wrcellViolation_eq, if_neg (not_not.2 ⟨hx, hy⟩), if_pos (Nat.not_lt.2 hv)]
  rw [exec_raises hlive hstate, raiseFault_eq]
  rfl

/-! ## The faulted state -/

/-- A faulted engine refuses every command but RDREG. -/
theorem exec_faulted {i : Instr} {s : State} (hfault : s.fault = true) (hi : ∀ r, i ≠ .rdreg r) :
    exec i s = .next (refuse s) := by
  cases i with
  | rdreg r => exact absurd rfl (hi r)
  | wrcell x y v => exact perform_faulted _ (writeFront x y v) hfault
  | rdcell x y => exact perform_faulted _ (readFront x y) hfault
  | step => exact perform_faulted none generation hfault
  | nbrs x y => exact perform_faulted _ (answerNbrs x y) hfault

/-- Everything a word can do on a faulted engine: a legal RDREG is executed, any other word is refused (R138). -/
theorem runWord_faulted (w : Word) {s : State} (hfault : s.fault = true) :
    (∃ r p, verdict s.cfg w = .legal (.rdreg r) ∧ readRegister r s = some p ∧ runWord w s = .next (respond .ok p s)) ∨
      ((∀ r, verdict s.cfg w ≠ .legal (.rdreg r)) ∧ runWord w s = .next (refuse s)) := by
  cases hv : verdict s.cfg w with
  | viol c => exact .inr ⟨by simp, by rw [runWord_of_viol hv, violated_faulted c hfault]⟩
  | legal i =>
    obtain ⟨hi, hlegal⟩ := verdict_eq_legal hv
    by_cases hreg : ∃ r, i = .rdreg r
    · obtain ⟨r, rfl⟩ := hreg
      obtain ⟨p, hp⟩ := Option.isSome_iff_exists.1 (readRegister_isSome (s := s).2 (operandViolation_rdreg_none.1 hlegal))
      exact .inl ⟨r, p, rfl, hp, by rw [runWord_of_decode hi, exec_rdreg hp]⟩
    · rw [not_exists] at hreg
      exact .inr ⟨by simpa using hreg, by rw [runWord_of_decode hi, exec_faulted hfault hreg]⟩

/-- Settles O39: the two cases of `runWord_faulted`, of which what R74 finds in the word excludes one. -/
theorem faultedEngineOnlyReadsRegisters : Obligations.FaultedEngineOnlyReadsRegisters := by
  intro s w rest hin hfault
  rw [step_command hin]
  obtain ⟨r, p, hv, hp, hrun⟩ | ⟨hv, hrun⟩ := runWord_faulted w (s := { s with inbox := rest }) hfault <;>
    rw [hrun]
  · refine ⟨fun r' hv' => ?_, fun hnone => absurd hv (hnone r)⟩
    obtain rfl : r = r' := by simpa using hv.symm.trans hv'
    have hsame : readRegister r { s with inbox := rest } = readRegister r s := rfl
    exact ⟨p, hsame ▸ hp, by rw [respond, responseWord_ok]⟩
  · exact ⟨fun r hr => absurd hr (hv r), fun _ => by rw [refuse_eq]⟩

/-- The engine was faulted in `s` and still is in `t`: the first cause, SEL and both buffers are as they were, and `answered`
words have been answered, each with status OK or with the refusal (R138, R139). -/
structure StaysFaulted (s : State) (answered : Nat) (t : State) : Prop where
  fault : t.fault = true
  cause : t.cause = s.cause
  sel : t.sel = s.sel
  buf0 : t.buf0 = s.buf0
  buf1 : t.buf1 = s.buf1
  responses : ∃ new, t.responses = s.responses ++ new ∧ new.length = answered ∧
    ∀ r ∈ new, statusOf r = 0 ∨ r = 0x70000000#32

theorem StaysFaulted.refl {s : State} (hfault : s.fault = true) : StaysFaulted s 0 s :=
  ⟨hfault, rfl, rfl, rfl, rfl, [], by simp, rfl, by simp⟩

theorem StaysFaulted.trans {s u t : State} {m n : Nat} (hsu : StaysFaulted s m u) (hut : StaysFaulted u n t) :
    StaysFaulted s (m + n) t := by
  obtain ⟨new, hnew, hlength, hanswers⟩ := hsu.responses
  obtain ⟨new', hnew', hlength', hanswers'⟩ := hut.responses
  refine ⟨hut.fault, hut.cause.trans hsu.cause, hut.sel.trans hsu.sel, hut.buf0.trans hsu.buf0,
    hut.buf1.trans hsu.buf1, new ++ new', ?_, ?_, fun r hr => ?_⟩
  · rw [hnew', hnew, List.append_assoc]
  · rw [List.length_append, hlength, hlength']
  · exact (List.mem_append.1 hr).elim (hanswers r) (hanswers' r)

/-- A step that takes a word on a faulted engine completes, takes that word alone and answers it (R138). -/
theorem step_staysFaulted {s : State} {w : Word} {ws : List Word} (hfault : s.fault = true)
    (hin : s.inbox = commandsOf (w :: ws)) : ∃ u, step s = .next u ∧ u.inbox = commandsOf ws ∧ StaysFaulted s 1 u := by
  rw [step_command hin]
  obtain ⟨r, p, -, -, hrun⟩ | ⟨-, hrun⟩ := runWord_faulted w (s := { s with inbox := commandsOf ws }) hfault
  · exact ⟨_, hrun, rfl, hfault, rfl, rfl, rfl, rfl, _, rfl, rfl, by simp [Status.code]⟩
  · exact ⟨_, hrun, rfl, hfault, rfl, rfl, rfl, rfl, _, rfl, rfl, by simp [responseWord_faulted]⟩

/-- From a faulted engine with only words to come every run completes, and the faulted state stays (R139), by induction on
the number of steps: a step takes one word, or is idle when none is left. -/
theorem runSteps_staysFaulted (n : Nat) {s : State} {ws : List Word} (hfault : s.fault = true)
    (hin : s.inbox = commandsOf ws) : ∃ t, runSteps n s = .next t ∧ StaysFaulted s (min n ws.length) t := by
  induction n generalizing s ws with
  | zero => exact ⟨s, rfl, by simpa using StaysFaulted.refl hfault⟩
  | succ n ih =>
    cases ws with
    | nil =>
      rw [runSteps_next (step_idle hin)]
      simpa using ih hfault hin
    | cons w ws =>
      obtain ⟨u, hstep, hin', hone⟩ := step_staysFaulted hfault hin
      obtain ⟨t, hrun, hrest⟩ := ih hone.fault hin'
      refine ⟨t, (runSteps_next hstep).trans hrun, ?_⟩
      rw [List.length_cons, Nat.add_min_add_right, Nat.add_comm]
      exact hone.trans hrest

/-- Settles O40: the fields of `StaysFaulted` after the run. -/
theorem onlyResetLeavesTheFaultedState : Obligations.OnlyResetLeavesTheFaultedState := by
  intro n s ws hfault hin
  obtain ⟨t, hrun, hstays⟩ := runSteps_staysFaulted n hfault hin
  obtain ⟨new, hnew, hlength, hanswers⟩ := hstays.responses
  exact ⟨t, new, hrun, hstays.fault, hstays.cause, hstays.sel, hstays.buf0, hstays.buf1, hnew, hlength, hanswers⟩

/-! ## Stops -/

/-- Settles O45: every step completes with the invariant, hence so does every run, by induction on the number of steps. -/
theorem machineNeverStops : Obligations.MachineNeverStops := by
  intro n
  induction n with
  | zero => exact fun s hinv => ⟨s, rfl, hinv⟩
  | succ n ih =>
    intro s hinv
    obtain ⟨u, hstep, hinv'⟩ := step_completesInv hinv
    obtain ⟨t, hrun, ht⟩ := ih u hinv'
    exact ⟨t, (runSteps_next hstep).trans hrun, ht⟩

/-- RDCELL of a cell whose stored value is no state of the cycle stops (R144). -/
theorem exec_rdcell_stops {s : State} {x y : Nat} (hlive : s.fault = false) (hx : x < s.cfg.W) (hy : y < s.cfg.H)
    (hout : s.cfg.K ≤ cellAt s.front x y) : exec (.rdcell x y) s = .fault .cellOutOfRange := by
  have hread : cellRead s.sel x y s = none := cellRead_eq_none.2 fun ⟨_, _, hv⟩ => Nat.not_lt.2 hout hv
  rw [exec, execRdcell, coordViolation_none.2 ⟨hx, hy⟩, perform_live _ hlive, readFront, hread, withAccess]

/-- STEP from a front buffer that holds a value that is no state of the cycle stops (R144). -/
theorem exec_step_stops {s : State} (hlive : s.fault = false) (hout : statesInRange s.cfg s.front = false) :
    exec .step s = .fault .cellOutOfRange := by
  rw [exec, execStep, perform_live _ hlive, generation, if_neg (by simp [hout])]

/-- Where no micro-step has a behaviour, only the empty schedule runs, and it leaves the STEP as it is (R106). -/
theorem runSchedule_of_not_allowed {groups : List (List (Nat × Nat))} {p q : StepProgress}
    (hno : microAllowed p.arch = false) (h : runSchedule groups p = some q) : groups = [] ∧ q = p := by
  cases groups with
  | nil => exact ⟨rfl, (Option.some.inj h).symm⟩
  | cons group rest =>
    rw [runSchedule] at h
    split at h
    next r hr =>
      obtain ⟨-, -, hyes, -⟩ := cellUpdates_some hr
      simp [hno] at hyes
    next => cases h

/-- Settles O23: RDCELL reads the value, and STEP and every micro-step check the front buffer for it. -/
theorem storedStateOutsideTheCycleHasNoBehaviour : Obligations.StoredStateOutsideTheCycleHasNoBehaviour := by
  intro s x y hlive hx hy hout
  have hrange : statesInRange s.cfg s.front = false := statesInRange_eq_false hout
  have hno : microAllowed s = false := by simp [microAllowed, hrange]
  refine ⟨exec_rdcell_stops hlive hx hy hout, exec_step_stops hlive hrange, fun groups p hp => ?_⟩
  obtain ⟨rfl, rfl⟩ := runSchedule_of_not_allowed hno (scheduleStep_eq_some.1 hp).2
  exact ⟨rfl, by simp [swapMicro, hno]⟩

/-- Settles O53: `step_idle`. -/
theorem idleEngineKeepsItsState : Obligations.IdleEngineKeepsItsState := fun _ => step_idle

end Sys2Proof.Machine
end

section
/-! Reset while a command is in flight (`spec/70_reset_and_hazards.md` R160, R161). The cells a STEP has already
written are lost: its micro-steps write the back buffer only (R106), and reset clears both buffers. -/

namespace Sys2Proof.Machine

/-- Two states that differ in the back buffer only have the same reset state. -/
theorem hostReset_of_sameButBack {s t : State} (h : SameButBack s t) : hostReset t = hostReset s := by
  rw [hostReset_eq, hostReset_eq, h.cfg, h.inbox, h.responses]

/-- Reset in the middle of a STEP leaves what reset before the STEP would have left, whatever cells are done (R161). -/
theorem InProgress.abandonStep_eq {s : State} {done : List (Nat × Nat)} {p : StepProgress} (h : InProgress s done p) :
    abandonStep p = hostReset s := hostReset_of_sameButBack h.keeps

/-- Settles O52: the step that takes a command in flight is a reset, and a STEP in progress differs from the state that
accepted it in the back buffer only. -/
theorem resetAbandonsTheCommandInFlight : Obligations.ResetAbandonsTheCommandInFlight := by
  refine ⟨fun s w rest hin => ?_, fun s groups p hp => ?_⟩
  · rw [step_reset rfl hin, hostReset_eq]
  · rw [(inProgress_of_scheduleStep hp).abandonStep_eq, hostReset_eq]

end Sys2Proof.Machine
end
